-- ==== Sys2Proof/Word.lean ====
section
/-! DEFINITION. The three word types of GFAU: the 8-bit datum, the command word and the response word.
Bit 0 is the least significant bit of each (00_scope.md rule R8). -/

namespace Sys2Proof

/-- Eight bits: a field element, a memory entry, a memory index or a control register
(rules R6, R8: bit `i` of an element is the coefficient of x^i). -/
abbrev Byte := BitVec 8

/-- The 32-bit command word of rule R70. -/
abbrev CmdWord := BitVec 32

/-- The 16-bit response word of rule R72. -/
abbrev RspWord := BitVec 16

end Sys2Proof
end

