-- ==== Sys2Proof/Syntax.lean ====
section
/-! DEFINITION. The nineteen commands of GFAU-1 (30_encoding.md rule R76) as one inductive type, the four
formats of rule R71, and the assembler line of rule R80 as data. A constructor carries exactly the operand
fields its format uses, each an 8-bit field taken as it stands (rule R74). -/

namespace Sys2Proof

/-- A command of GFAU-1, with its operands in the order `a`, `b`, `c` (rules R3, R71, R76). -/
inductive Instr where
  /-- `GADD a, b` (rule R106). -/
  | gadd (a b : Byte)
  /-- `GSUB a, b` (rule R107). -/
  | gsub (a b : Byte)
  /-- `GMUL a, b` (rule R108). -/
  | gmul (a b : Byte)
  /-- `GDIV a, b` (rule R109). -/
  | gdiv (a b : Byte)
  /-- `GINV a` (rule R110). -/
  | ginv (a : Byte)
  /-- `LDC i, v` (rule R120). -/
  | ldc (i v : Byte)
  /-- `RDC i` (rule R121). -/
  | rdc (i : Byte)
  /-- `SETDEG d` (rule R122). -/
  | setdeg (d : Byte)
  /-- `RDDEG` (rule R123). -/
  | rddeg
  /-- `EVAL x` (rule R124). -/
  | eval (x : Byte)
  /-- `LDP i, x, y` (rule R140). -/
  | ldp (i x y : Byte)
  /-- `RDPX i` (rule R141). -/
  | rdpx (i : Byte)
  /-- `RDPY i` (rule R142). -/
  | rdpy (i : Byte)
  /-- `SETPN n` (rule R143). -/
  | setpn (n : Byte)
  /-- `RDPN` (rule R144). -/
  | rdpn
  /-- `INTERP v` (rule R146). -/
  | interp (v : Byte)
  /-- `RDST` (rule R160). -/
  | rdst
  /-- `CLRS` (rule R161). -/
  | clrs
  /-- `NOP` (rule R162). -/
  | nop
  deriving DecidableEq, Repr

/-- The four formats of rule R71, named after the operand fields they use. -/
inductive Format where
  | z
  | a
  | ab
  | abc
  deriving DecidableEq, Repr

/-- How many operand fields a format uses (rule R71). -/
def Format.arity : Format → Nat
  | .z => 0
  | .a => 1
  | .ab => 2
  | .abc => 3

/-- The bits of the command word a decoder compares, by format (rule R71, column `mask`). -/
def Format.mask : Format → CmdWord
  | .z => 0xFFFFFFFF#32
  | .a => 0xFF00FFFF#32
  | .ab => 0xFF0000FF#32
  | .abc => 0xFF000000#32

/-- The format of each command (rules R71, R76). -/
def Instr.format : Instr → Format
  | .gadd _ _ | .gsub _ _ | .gmul _ _ | .gdiv _ _ | .ldc _ _ => .ab
  | .ginv _ | .rdc _ | .setdeg _ | .eval _ | .rdpx _ | .rdpy _ | .setpn _ | .interp _ => .a
  | .ldp _ _ _ => .abc
  | .rddeg | .rdpn | .rdst | .clrs | .nop => .z

/-- The format that goes with a mnemonic in upper case (rules R76, R80); no other mnemonic exists, and
there are no pseudo-instructions and no aliases (rule R81). -/
def mnemonicFormat : String → Option Format
  | "GADD" | "GSUB" | "GMUL" | "GDIV" | "LDC" => some .ab
  | "GINV" | "RDC" | "SETDEG" | "EVAL" | "RDPX" | "RDPY" | "SETPN" | "INTERP" => some .a
  | "LDP" => some .abc
  | "RDDEG" | "RDPN" | "RDST" | "CLRS" | "NOP" => some .z
  | _ => none

/-- One line of assembler text after its comment is dropped: a mnemonic and its operands in the order
`a`, `b`, `c` (rule R80). The operands are numbers, so that one above 255 can be written and refused. -/
structure AsmLine where
  mnemonic : String
  operands : List Nat
  deriving DecidableEq, Repr

end Sys2Proof
end

