-- ==== Sys2Proof/WellFormed.lean ====
section
/-! DEFINITION. Well-formedness. A term of `Instr` needs no check: each operand is one 8-bit field (rule R74)
and a constructor carries exactly the fields of its format (rule R71), so no ill-formed `Instr` exists. What
can be ill-formed is an assembler line (rule R80) and a command word (rule R77; `decode` rejects it by name). -/

namespace Sys2Proof

/-- Every command term is well-formed: no operand value is illegal (rules R51, R74). -/
def Instr.wellFormed : Instr → Bool :=
  fun _ => true

/-- Rule R80's three assembly errors: an unknown mnemonic (rule R81), "a missing operand or an extra
operand", "an operand above 255". -/
def AsmLine.wellFormed (l : AsmLine) : Bool :=
  match mnemonicFormat l.mnemonic with
  | none => false
  | some f => l.operands.length == f.arity && l.operands.all (fun n => decide (n ≤ 255))

end Sys2Proof
end

