-- ==== Sys2Proof/Decode.lean ====
section
/-! DEFINITION. The fields of the command word, the opcode map, the decoder (total on every 32-bit word,
rejecting by name) and after it the encoder: 30_encoding.md rules R70 to R79. -/

namespace Sys2Proof

/-- `cmd.op`, bits 31:24 (rule R70). -/
def cmdOp (w : CmdWord) : Byte := w.extractLsb' 24 8

/-- `cmd.a`, bits 23:16 (rules R70, R74). -/
def cmdA (w : CmdWord) : Byte := w.extractLsb' 16 8

/-- `cmd.b`, bits 15:8 (rules R70, R74). -/
def cmdB (w : CmdWord) : Byte := w.extractLsb' 8 8

/-- `cmd.c`, bits 7:0 (rules R70, R74). -/
def cmdC (w : CmdWord) : Byte := w.extractLsb' 0 8

/-- `cmd = {op, a, b, c}` (rule R70). -/
def cmdWord (op a b c : Byte) : CmdWord := op ++ a ++ b ++ c

/-- Why a word is no command of GFAU-1 (rules R75, R77, R78). The unit reports both alike, as `ILLEGAL`. -/
inductive Illegal where
  /-- The opcode value is not in the map of rule R76 (rule R78). -/
  | reservedOpcode
  /-- An operand field that the command's format does not use is not 0x00 (rule R77). -/
  | unusedFieldNonzero
  deriving DecidableEq, Repr

/-- A row's command as a function of the operand fields its format uses (rule R71). -/
inductive Form where
  | z (i : Instr)
  | a (f : Byte → Instr)
  | ab (f : Byte → Byte → Instr)
  | abc (f : Byte → Byte → Byte → Instr)

/-- One row of the opcode map: opcode value, mnemonic, and command by format. -/
structure OpRow where
  op : Byte
  mnemonic : String
  form : Form

/-- The opcode map: rule R76, row by row. Every opcode value not listed is reserved (rule R78). -/
def opcodeMap : List OpRow :=
  [⟨0x01#8, "GADD", .ab .gadd⟩,
   ⟨0x02#8, "GSUB", .ab .gsub⟩,
   ⟨0x03#8, "GMUL", .ab .gmul⟩,
   ⟨0x04#8, "GDIV", .ab .gdiv⟩,
   ⟨0x05#8, "GINV", .a .ginv⟩,
   ⟨0x10#8, "LDC", .ab .ldc⟩,
   ⟨0x11#8, "RDC", .a .rdc⟩,
   ⟨0x12#8, "SETDEG", .a .setdeg⟩,
   ⟨0x13#8, "RDDEG", .z .rddeg⟩,
   ⟨0x14#8, "EVAL", .a .eval⟩,
   ⟨0x20#8, "LDP", .abc .ldp⟩,
   ⟨0x21#8, "RDPX", .a .rdpx⟩,
   ⟨0x22#8, "RDPY", .a .rdpy⟩,
   ⟨0x23#8, "SETPN", .a .setpn⟩,
   ⟨0x24#8, "RDPN", .z .rdpn⟩,
   ⟨0x25#8, "INTERP", .a .interp⟩,
   ⟨0x30#8, "RDST", .z .rdst⟩,
   ⟨0x31#8, "CLRS", .z .clrs⟩,
   ⟨0x32#8, "NOP", .z .nop⟩]

/-- The row of an opcode value, if it is assigned. -/
def rowOf (op : Byte) : Option OpRow := opcodeMap.find? (fun r => r.op == op)

/-- The format test of rule R75: the fields the format does not use must be 0x00, and the command takes
the others. -/
def fillForm (f : Form) (a b c : Byte) : Except Illegal Instr :=
  match f with
  | .z i => if a = 0x00#8 ∧ b = 0x00#8 ∧ c = 0x00#8 then .ok i else .error .unusedFieldNonzero
  | .a g => if b = 0x00#8 ∧ c = 0x00#8 then .ok (g a) else .error .unusedFieldNonzero
  | .ab g => if c = 0x00#8 then .ok (g a b) else .error .unusedFieldNonzero
  | .abc g => .ok (g a b c)

/-- `decode(cmd)` of rule R75: total on every 32-bit word, reads no state. -/
def decode (w : CmdWord) : Except Illegal Instr :=
  match rowOf (cmdOp w) with
  | none => .error .reservedOpcode
  | some r => fillForm r.form (cmdA w) (cmdB w) (cmdC w)

/-- The word that `n` bits of the table's numbering denote: bit 0 is the least significant bit of the one
word a command has (rules R70, R79), and every bit above the given ones is 0. -/
def tableWord (nbits w : Nat) : CmdWord := BitVec.ofNat 32 (w % 2 ^ nbits)

/-- The command this decoder reads from a word of the opcode table. A command has one length, 32 bits
(rule R79), so more bits than that are no command. -/
def decodeTableWord (nbits w : Nat) : Option Instr :=
  if nbits ≤ 32 then
    match decode (tableWord nbits w) with
    | .ok i => some i
    | .error _ => none
  else none

/-- The opcode value of each command (rule R76, column `op`). -/
def opcodeOf : Instr → Byte
  | .gadd _ _ => 0x01#8
  | .gsub _ _ => 0x02#8
  | .gmul _ _ => 0x03#8
  | .gdiv _ _ => 0x04#8
  | .ginv _ => 0x05#8
  | .ldc _ _ => 0x10#8
  | .rdc _ => 0x11#8
  | .setdeg _ => 0x12#8
  | .rddeg => 0x13#8
  | .eval _ => 0x14#8
  | .ldp _ _ _ => 0x20#8
  | .rdpx _ => 0x21#8
  | .rdpy _ => 0x22#8
  | .setpn _ => 0x23#8
  | .rdpn => 0x24#8
  | .interp _ => 0x25#8
  | .rdst => 0x30#8
  | .clrs => 0x31#8
  | .nop => 0x32#8

/-- The command word of a command: its opcode, its operands in the order `a`, `b`, `c`, and 0x00 in every
field its format does not use (rules R70, R71, R77). -/
def encode (i : Instr) : CmdWord :=
  match i with
  | .gadd a b | .gsub a b | .gmul a b | .gdiv a b | .ldc a b => cmdWord (opcodeOf i) a b 0x00#8
  | .ginv a | .rdc a | .setdeg a | .eval a | .rdpx a | .rdpy a | .setpn a | .interp a =>
    cmdWord (opcodeOf i) a 0x00#8 0x00#8
  | .ldp a b c => cmdWord (opcodeOf i) a b c
  | .rddeg | .rdpn | .rdst | .clrs | .nop => cmdWord (opcodeOf i) 0x00#8 0x00#8 0x00#8

end Sys2Proof
end

