-- ==== Sys2Proof/Machine/Field.lean ====
section
/-! DEFINITION. The constants of the field, the constant tables `EXP` and `LOG` (10_state.md rules R21 to
R23) and the five field functions (41_field.md rules R100 to R105, R112). -/

namespace Sys2Proof.Machine

/-- `POLY`, the reduction polynomial x^8 + x^4 + x^3 + x + 1 (rules R6, R7). -/
def poly : BitVec 9 := 0x11B#9

/-- `GEN`, the generator of the tables (rule R6, decision D2). -/
def gen : Byte := 0x03#8

/-- The rows of the table of rule R21, sixteen entries to a row, the first entry leftmost. The last row has
fifteen entries (there is no `EXP[255]`): its sixteenth byte is filler that no index reaches. -/
def expRow : Nat → BitVec 128
  | 0x0 => 0x0103050f113355ff1a2e7296a1f81335#128
  | 0x1 => 0x5fe13848d87395a4f702060a1e2266aa#128
  | 0x2 => 0xe5345ce43759eb266abed97090abe631#128
  | 0x3 => 0x53f5040c143c44cc4fd168b8d36eb2cd#128
  | 0x4 => 0x4cd467a9e03b4dd762a6f10818287888#128
  | 0x5 => 0x839eb9d06bbddc7f8198b3ce49db769a#128
  | 0x6 => 0xb5c457f9103050f00b1d2769bbd661a3#128
  | 0x7 => 0xfe192b7d8792adec2f7193aee92060a0#128
  | 0x8 => 0xfb163a4ed26db7c25de73256fa153f41#128
  | 0x9 => 0xc35ee23d47c940c05bed2c749cbfda75#128
  | 0xa => 0x9fbad564acef2a7e829dbcdf7a8e8980#128
  | 0xb => 0x9bb6c158e82365afea256fb1c843c554#128
  | 0xc => 0xfc1f2163a5f407091b2d7799b0cb46ca#128
  | 0xd => 0x45cf4ade798b8691a8e33e42c651f30e#128
  | 0xe => 0x12365aee297b8d8c8f8a8594a7f20d17#128
  | 0xf => 0x394bdd7c8497a2fd1c246cb4c752f600#128
  | _ => 0#128

/-- The rows of the table of rule R22. The first byte of the first row is filler: `LOG[0x00]` does not
exist, and `logTable` never reads it. -/
def logRow : Nat → BitVec 128
  | 0x0 => 0x0000190132021ac64bc71b6833eedf03#128
  | 0x1 => 0x6404e00e348d81ef4c7108c8f8691cc1#128
  | 0x2 => 0x7dc21db5f9b9276a4de4a6729ac90978#128
  | 0x3 => 0x652f8a05210fe12412f082453593da8e#128
  | 0x4 => 0x968fdbbd36d0ce94135cd2f140468338#128
  | 0x5 => 0x66ddfd30bf068b62b325e29822889110#128
  | 0x6 => 0x7e6e48c3a3b61e423a6b2854fa853dba#128
  | 0x7 => 0x2b790a159b9f5eca4ed4ace5f373a757#128
  | 0x8 => 0xaf58a850f4ead6744faee9d5e7e6ade8#128
  | 0x9 => 0x2cd7757aeb160bf559cb5fb09ca951a0#128
  | 0xa => 0x7f0cf66f17c449ecd8431f2da4767bb7#128
  | 0xb => 0xccbb3e5afb60b1863b52a16caa55299d#128
  | 0xc => 0x97b2879061bedcfcbc95cfcd373f5bd1#128
  | 0xd => 0x5339843c41a26d47142a9e5d56f2d3ab#128
  | 0xe => 0x441192d923202e89b47cb8267799e3a5#128
  | 0xf => 0x674aeddec531fe180d638c80c0f77007#128
  | _ => 0#128

/-- Entry `k` of a table printed in rows of sixteen. -/
def tableEntry (row : Nat → BitVec 128) (k : Nat) : Byte :=
  (row (k / 16) >>> (8 * (15 - k % 16))).setWidth 8

/-- `EXP[k]`, `k` in 0 to 254: the generator to the power `k` (rule R21). -/
def expTable (k : Fin 255) : Byte := tableEntry expRow k.val

/-- `LOG[a]`: the `k` in 0 to 254 with `EXP[k] = a`; zero has none (rule R22). -/
def logTable (a : Byte) : Option (Fin 255) :=
  if a = 0x00#8 then none else some (Fin.ofNat 255 (tableEntry logRow a.toNat).toNat)

/-- Addition modulo 255 of two logarithms: one conditional subtraction of 255 (rules R102, R112). -/
def logAdd (la lb : Fin 255) : Fin 255 :=
  if h : 255 ≤ la.val + lb.val then ⟨la.val + lb.val - 255, by omega⟩ else ⟨la.val + lb.val, by omega⟩

/-- Subtraction modulo 255 of two logarithms: one conditional addition of 255 (rules R103, R112). -/
def logSub (la lb : Fin 255) : Fin 255 :=
  if h : la.val < lb.val then ⟨la.val + 255 - lb.val, by omega⟩ else ⟨la.val - lb.val, by omega⟩

/-- `gadd(a, b)` (rule R100). -/
def gadd (a b : Byte) : Byte := a ^^^ b

/-- `gsub(a, b)` (rule R101). -/
def gsub (a b : Byte) : Byte := a ^^^ b

/-- The table definition of the product (rule R102), for given tables. The zero test is the logarithm's:
exactly 0x00 has none, and then the product is 0x00. -/
def tableMul (exp : Fin 255 → Byte) (log : Byte → Option (Fin 255)) (a b : Byte) : Byte :=
  match log a, log b with
  | some la, some lb => exp (logAdd la lb)
  | _, _ => 0x00#8

/-- The table definition of the quotient (rule R103), for given tables; `none` is `raise DIV0`. The divisor
is tested before anything else. -/
def tableDiv (exp : Fin 255 → Byte) (log : Byte → Option (Fin 255)) (a b : Byte) : Option Byte :=
  match log b with
  | none => none
  | some lb =>
    match log a with
    | none => some 0x00#8
    | some la => some (exp (logSub la lb))

/-- `gmul(a, b)`, through the unit's own tables (rules R23, R102). -/
def gmul (a b : Byte) : Byte := tableMul expTable logTable a b

/-- `gdiv(a, b)`, through the unit's own tables; it has no value for `b` = 0x00 (rules R23, R103). -/
def gdiv (a b : Byte) : Option Byte := tableDiv expTable logTable a b

/-- `ginv(a) = gdiv(0x01, a)`; it has no value for `a` = 0x00 (rule R104). -/
def ginv (a : Byte) : Option Byte := gdiv 0x01#8 a

/-- The loop of `gmul_ref` (rule R102): bits `i - 1` down to 0 of `b` are still to come. -/
def gmulRefLoop (a b : Byte) : Nat → Byte → Byte
  | 0, p => p
  | i + 1, p =>
    let doubled := if p.getLsbD 7 then (p <<< 1) ^^^ poly.setWidth 8 else p <<< 1
    gmulRefLoop a b i (if b.getLsbD i then doubled ^^^ a else doubled)

/-- `gmul_ref(a, b)`, the table-free definition of the product (rule R102). -/
def gmulRef (a b : Byte) : Byte := gmulRefLoop a b 8 0x00#8

end Sys2Proof.Machine
end

