-- ==== Sys2Proof/Config.lean ====
section
/-! DEFINITION. The free values of the model. Nothing else is left to an implementation: the spec fixes every parameter
(00_scope.md rule R6), and the constants `POLY` and `GEN` stand in Machine/Field.lean. -/

namespace Sys2Proof

/-- FREE VALUE (assumption 1). The byte that the `k`-th read of a memory entry never written since the
last reset yields: "any value" per read, "an independent draw each time" (93_implementation_defined.md
U3; rules R35, R194). It has no body, so nothing can be proved of it. -/
opaque Config.freeByte : Nat → Byte

end Sys2Proof
end

