-- ==== Sys2Proof/Machine/State.lean ====
section
/-! DEFINITION. The state of GFAU as plain data (10_state.md rule R20), the two ends of its command port
around it, and the state after reset (rule R35). The constant tables `EXP` and `LOG` are definitions, not fields
(rule R20): Machine/Field.lean. -/

namespace Sys2Proof.Machine

/-- A memory of GFAU: its written entries as (index, byte) pairs, indices strictly rising. An entry that
is not listed has not been written since the last reset, and reads as no fixed value (rule R35). -/
abbrev Memory := List Host.Cell

/-- The canonical form of a memory: indices strictly rising, all in 0 to 255 (rules R50, R51). -/
abbrev Memory.wf (m : Memory) : Prop :=
  m.Pairwise (fun c d => c.1 < d.1) ∧ ∀ c ∈ m, c.1 < 256

/-- The two faults of GFAU (60_exceptions.md rule R170): outcomes of one command, reported in its
response, after which the unit goes on. They are not `Fault`, which would stop the machine. -/
inductive FaultCode where
  /-- A field division whose divisor is 0x00 (rule R171). -/
  | div0
  /-- The word is no command of GFAU-1 (rule R172). -/
  | illegal
  deriving DecidableEq, Repr

/-- The response to one command (rules R72, R73). A fault carries no data: the `data` field is then
unspecified, and no claim can mention it (93_implementation_defined.md U2). -/
inductive Response where
  /-- Code 0x00 with the 8-bit result, 0x00 where the command has none. -/
  | ok (data : Byte)
  /-- Code 0x01 or 0x02. -/
  | fault (code : FaultCode)
  deriving DecidableEq, Repr

/-- What the host does to the unit, one event at a time (rules R57, R190, R192; assumption 2). -/
inductive HostEvent where
  /-- The host offers a command word, and the unit accepts it and serves it to its response. -/
  | command (w : CmdWord)
  /-- The host raises `rst` while no command is in progress (rule R190). -/
  | reset
  /-- The host raises `rst` after the unit has accepted a command word and before its response: the
  command is abandoned (rule R190, 93_implementation_defined.md U9). -/
  | abandon (w : CmdWord)
  deriving DecidableEq, Repr

/-- THE STATE OF GFAU: exactly the mutable rows of rule R20, and nothing else. The command word is an input
of the unit's step and the response word its output (rule R36): `gfauStep` in Machine/Unit.lean. -/
structure Gfau where
  /-- `COEF`, the coefficient memory: 256 entries of 8 bits (rule R24). -/
  coef : Memory
  /-- `PX`, the x-coordinates of the points: 256 entries of 8 bits (rule R25). -/
  px : Memory
  /-- `PY`, the y-coordinates of the points: 256 entries of 8 bits (rule R25). -/
  py : Memory
  /-- `CDEG`, the degree of the polynomial in `COEF` (rule R28). -/
  cdeg : Byte
  /-- `PLAST`, the index of the last point (rule R29). -/
  plast : Byte
  /-- `STATUS`: bit 0 `DZ`, bit 1 `IL`, bits 7:2 always 0 (rule R30). -/
  status : Byte
  deriving DecidableEq, Repr

/-- The state of the whole the host's interface runs: the unit, and around it the two ends of its command
port and the count of free bytes. The three fields here are the model's own and no state of GFAU; no result
or effect of a command depends on the first two (rule R36; assumptions 1 and 2). -/
structure State extends Gfau where
  /-- MODEL'S OWN. The host's events the unit has not served yet, in the order the host issues them
  (rules R32, R56): the inputs of the steps to come. -/
  inbox : List HostEvent
  /-- MODEL'S OWN. The responses delivered so far, in command order (rules R57, R203): the outputs of the
  steps taken. -/
  outbox : List Response
  /-- MODEL'S OWN. How many free bytes have been drawn for reads of unwritten entries; the next such read
  yields `Config.freeByte draws` (assumption 1). -/
  draws : Nat
  deriving DecidableEq, Repr

/-- What stops the machine: nothing. GFAU never stops by itself and never locks up (rules R179, R203); an
idle unit waits (rule R182); the two faults of rule R170 are responses, after which the unit goes on. The
type therefore has no constructor. -/
inductive Fault where
  deriving DecidableEq, Repr

/-- Why a step gives an instruction no meaning. -/
inductive Refusal where
  /-- Raised only by an arm of `exec` whose instruction has no meaning yet; no arm is left that raises it.
  Safe: the machine stops where the hardware goes on. -/
  | notModelled (mnemonic : String)
  deriving DecidableEq, Repr

/-- GFAU right after reset (rules R35, R190): the three registers 0x00, no memory entry written. -/
def Gfau.reset : Gfau where
  coef := []
  px := []
  py := []
  cdeg := 0x00#8
  plast := 0x00#8
  status := 0x00#8

/-- The machine right after reset: GFAU as reset leaves it, no event offered and no response delivered. The
host's inbox starts empty: GFAU holds no program (rule R32). -/
def State.reset : State where
  toGfau := Gfau.reset
  inbox := []
  outbox := []
  draws := 0

end Sys2Proof.Machine
end

