-- ==== Sys2Proof/Machine/Flags.lean ====
section
/-! DEFINITION. The `STATUS` register and its two sticky flags, the only flags of GFAU (10_state.md rule R30). -/

namespace Sys2Proof.Machine

/-- The implemented bits of `STATUS`; bits 7:2 are reserved and read as 0 (rule R30, U6). -/
def statusMask : Byte := 0x03#8

/-- The flag a fault sets: `DZ`, bit 0, for `DIV0`; `IL`, bit 1, for `ILLEGAL` (rule R30). -/
def flagOf : FaultCode → Byte
  | .div0 => 0x01#8
  | .illegal => 0x02#8

/-- Set a fault's sticky flag; every other bit keeps its value (rules R30, R171, R172). -/
def setFlag (c : FaultCode) (u : Gfau) : Gfau :=
  { u with status := u.status ||| flagOf c }

/-- `STATUS <- 0x00` (rule R161). -/
def clearStatus (u : Gfau) : Gfau :=
  { u with status := 0x00#8 }

/-- The value a read of `STATUS` yields: the reserved bits are returned as 0 (rules R30, R160). -/
def readStatus (u : Gfau) : Byte := u.status &&& statusMask

/-- `STATUS.DZ`. -/
def dz (u : Gfau) : Bool := u.status.getLsbD 0

/-- `STATUS.IL`. -/
def il (u : Gfau) : Bool := u.status.getLsbD 1

end Sys2Proof.Machine
end

