-- ==== Sys2Proof/Machine/Ops.lean ====
section
/-! DEFINITION. The shared operations: one memory's load and store, a command's reply and its
delivery (rules R36, R72, R73), taking a fault (60_exceptions.md rules R171, R172, R178) and reset (70_reset_and_hazards.md rule R190).
There is no return from a fault, because nothing was entered (rule R179). -/

namespace Sys2Proof.Machine

/-- The byte written to entry `i` since the last reset, if any. -/
def memLoad : Memory → Nat → Option Byte
  | [], _ => none
  | (j, v) :: m, i => if i = j then some v else memLoad m i

/-- Write `v` to entry `i`, keeping the canonical form. -/
def memStore : Memory → Nat → Byte → Memory
  | [], i, v => [(i, v)]
  | (j, w) :: m, i, v =>
    if i < j then (i, v) :: (j, w) :: m
    else if i = j then (i, v) :: m
    else (j, w) :: memStore m i v

/-- Read entry `i` when `k` free bytes have been drawn: the written byte, or the next free byte, each read
of an unwritten entry an independent draw (rules R35, R194, U3; assumption 1). Answers the byte and how
many free bytes have been drawn after the read. -/
def memRead (m : Memory) (i k : Nat) : Byte × Nat :=
  match memLoad m i with
  | some v => (v, k)
  | none => (Config.freeByte k, k + 1)

/-- What the unit makes of one command: its state after it, the one response, and how many free bytes have
been drawn after it (rules R36, R57, R72). -/
structure Reply where
  unit : Gfau
  response : Response
  draws : Nat
  deriving DecidableEq, Repr

/-- `respond OK(v)` (rule R11). -/
def replyOk (v : Byte) (u : Gfau) (k : Nat) : Reply := { unit := u, response := .ok v, draws := k }

/-- `respond OK`: code 0x00, data 0x00 (rule R11). -/
def replyDone (u : Gfau) (k : Nat) : Reply := replyOk 0x00#8 u k

/-- TAKING A FAULT, `raise DIV0` and `raise ILLEGAL`: the fault's sticky flag is set, the response carries
its code, and every other piece of state keeps the value it had before the command (rules R12, R171, R172,
R178). Nothing is saved and control goes nowhere. -/
def raiseFault (c : FaultCode) (u : Gfau) (k : Nat) : Reply :=
  { unit := setFlag c u, response := .fault c, draws := k }

/-- The end of a command that divides: its result, or `raise DIV0` where the division has no value. -/
def replyOrDiv0 (r : Option Byte) (u : Gfau) (k : Nat) : Reply :=
  match r with
  | some v => replyOk v u k
  | none => raiseFault .div0 u k

/-- The unit's reply reaches the port: the new state of the unit takes the place of the old, and the one
response follows those delivered before (rules R57, R192). -/
def deliver (r : Reply) (s : State) : State :=
  { toGfau := r.unit, inbox := s.inbox, outbox := s.outbox ++ [r.response], draws := r.draws }

/-- The machine runs a command of the unit: the command sees the unit's state and nothing of the port. -/
def answer (command : Gfau → Nat → Reply) (s : State) : Host.Outcome State Fault Refusal :=
  .next (deliver (command s.toGfau s.draws) s)

/-- Reset: `CDEG`, `PLAST`, `STATUS` become 0x00 and the contents of the three memories become unspecified,
even where they were written (rule R190). A command in progress has no response; responses delivered
before and the host's later events are not the unit's to undo. -/
def resetUnit (s : State) : State := { s with toGfau := Gfau.reset }

/-- The outcome code of a fault (rule R73). -/
def FaultCode.code : FaultCode → Byte
  | .div0 => 0x01#8
  | .illegal => 0x02#8

/-- The `code` field of a response (rule R73). -/
def Response.code : Response → Byte
  | .ok _ => 0x00#8
  | .fault c => c.code

/-- The `data` field of a response, given what the unit happens to drive there after a fault, which the
spec leaves unspecified (rule R72, U2). -/
def Response.data (r : Response) (unspecified : Byte) : Byte :=
  match r with
  | .ok v => v
  | .fault _ => unspecified

/-- The 16-bit response word, `code` in bits 15:8 and `data` in bits 7:0 (rule R72). -/
def Response.word (r : Response) (unspecified : Byte) : RspWord := r.code ++ r.data unspecified

end Sys2Proof.Machine
end

