-- ==== Sys2Proof/Machine/FieldCommands.lean ====
section
/-! DEFINITION. The field commands `GADD`, `GSUB`, `GMUL`, `GDIV`, `GINV` (41_field.md rules R106 to R110).
None of them writes any state but the sticky flag of a fault. -/

namespace Sys2Proof.Machine

/-- `GADD a, b` (rule R106). -/
def gaddReply (a b : Byte) (u : Gfau) (k : Nat) : Reply := replyOk (gadd a b) u k

/-- `GADD`: the machine runs `gaddReply`. -/
def execGadd (a b : Byte) (s : State) : Host.Outcome State Fault Refusal :=
  answer (gaddReply a b) s

/-- `GSUB a, b` (rule R107). -/
def gsubReply (a b : Byte) (u : Gfau) (k : Nat) : Reply := replyOk (gsub a b) u k

/-- `GSUB`: the machine runs `gsubReply`. -/
def execGsub (a b : Byte) (s : State) : Host.Outcome State Fault Refusal :=
  answer (gsubReply a b) s

/-- `GMUL a, b` (rule R108). -/
def gmulReply (a b : Byte) (u : Gfau) (k : Nat) : Reply := replyOk (gmul a b) u k

/-- `GMUL`: the machine runs `gmulReply`. -/
def execGmul (a b : Byte) (s : State) : Host.Outcome State Fault Refusal :=
  answer (gmulReply a b) s

/-- `GDIV a, b`: `DIV0` exactly when `b` = 0x00 (rule R109). -/
def gdivReply (a b : Byte) (u : Gfau) (k : Nat) : Reply := replyOrDiv0 (gdiv a b) u k

/-- `GDIV`: the machine runs `gdivReply`. -/
def execGdiv (a b : Byte) (s : State) : Host.Outcome State Fault Refusal :=
  answer (gdivReply a b) s

/-- `GINV a`: `DIV0` exactly when `a` = 0x00 (rule R110). -/
def ginvReply (a : Byte) (u : Gfau) (k : Nat) : Reply := replyOrDiv0 (ginv a) u k

/-- `GINV`: the machine runs `ginvReply`. -/
def execGinv (a : Byte) (s : State) : Host.Outcome State Fault Refusal :=
  answer (ginvReply a) s

end Sys2Proof.Machine
end

