-- ==== Sys2Proof/Machine/Operands.lean ====
section
/-! DEFINITION. The one addressing mode of GFAU, direct: the index of a memory entry is the operand field
itself, an unsigned number 0 to 255 (20_memory.md rules R50, R51). The other operands are immediates
(10_state.md rule R31). -/

namespace Sys2Proof.Machine

/-- The three data spaces; the opcode selects the space, never the index (rule R50). -/
inductive Space where
  | coef
  | px
  | py
  deriving DecidableEq, Repr

/-- The memory of a space. -/
def memOf (sp : Space) (u : Gfau) : Memory :=
  match sp with
  | .coef => u.coef
  | .px => u.px
  | .py => u.py

/-- What is stored at an index of a space; `none` where nothing has been written since the last reset. -/
def stored (sp : Space) (u : Gfau) (i : Byte) : Option Byte := memLoad (memOf sp u) i.toNat

/-- `respond OK(MemRead(S, i, 1))`: the state of the unit is unchanged (rules R11, R54); a free byte has been
drawn if the entry was unwritten. -/
def readReply (sp : Space) (i : Byte) (u : Gfau) (k : Nat) : Reply :=
  let r := memRead (memOf sp u) i.toNat k
  replyOk r.1 u r.2

/-- `MemWrite(S, i, 1, v)`: one byte of one space, nothing else (rules R11, R26, R54). -/
def writeEntry (sp : Space) (i v : Byte) (u : Gfau) : Gfau :=
  match sp with
  | .coef => { u with coef := memStore u.coef i.toNat v }
  | .px => { u with px := memStore u.px i.toNat v }
  | .py => { u with py := memStore u.py i.toNat v }

end Sys2Proof.Machine
end

