-- ==== Sys2Proof/Machine/Lagrange.lean ====
section
/-! DEFINITION. The Lagrange kernel's commands `LDP`, `RDPX`, `RDPY`, `SETPN`, `RDPN`, `INTERP`
(43_lagrange.md rules R140 to R149). -/

namespace Sys2Proof.Machine

/-- `LDP i, x, y`: `PX[i] <- x` and `PY[i] <- y` together (rules R54, R140). -/
def ldpReply (i x y : Byte) (u : Gfau) (k : Nat) : Reply :=
  replyDone (writeEntry .py i y (writeEntry .px i x u)) k

/-- `LDP`: the machine runs `ldpReply`. -/
def execLdp (i x y : Byte) (s : State) : Host.Outcome State Fault Refusal :=
  answer (ldpReply i x y) s

/-- `RDPX i` (rule R141). -/
def rdpxReply (i : Byte) (u : Gfau) (k : Nat) : Reply := readReply .px i u k

/-- `RDPX`: the machine runs `rdpxReply`. -/
def execRdpx (i : Byte) (s : State) : Host.Outcome State Fault Refusal :=
  answer (rdpxReply i) s

/-- `RDPY i` (rule R142). -/
def rdpyReply (i : Byte) (u : Gfau) (k : Nat) : Reply := readReply .py i u k

/-- `RDPY`: the machine runs `rdpyReply`. -/
def execRdpy (i : Byte) (s : State) : Host.Outcome State Fault Refusal :=
  answer (rdpyReply i) s

/-- `SETPN n`: `PLAST <- n` (rule R143). -/
def setpnReply (n : Byte) (u : Gfau) (k : Nat) : Reply := replyDone { u with plast := n } k

/-- `SETPN`: the machine runs `setpnReply`. -/
def execSetpn (n : Byte) (s : State) : Host.Outcome State Fault Refusal :=
  answer (setpnReply n) s

/-- `RDPN` (rule R144). -/
def rdpnReply (u : Gfau) (k : Nat) : Reply := replyOk u.plast u k

/-- `RDPN`: the machine runs `rdpnReply`. -/
def execRdpn (s : State) : Host.Outcome State Fault Refusal :=
  answer rdpnReply s

/-- The inner loop of rule R146: the basis value of point `i` at `v`, `l` so far, over the point numbers
`j` still to come. `none` is `raise DIV0`, which `gdiv` raises for a zero denominator. The second
component is how many free bytes have been drawn. Each read of `PX` is a read of its own (U3). -/
def basisLoop (px : Memory) (v : Byte) (i : Nat) : List Nat → Byte → Nat → Option Byte × Nat
  | [], l, k => (some l, k)
  | j :: js, l, k =>
    if j = i then basisLoop px v i js l k
    else
      let numX := memRead px j k
      let denI := memRead px i numX.2
      let denJ := memRead px j denI.2
      match gdiv (gsub v numX.1) (gsub denI.1 denJ.1) with
      | none => (none, denJ.2)
      | some q => basisLoop px v i js (gmul l q) denJ.2

/-- The outer loop of rule R146 over the point numbers `i` still to come, `sum` so far; `js` are the point
numbers 0 to `PLAST`. -/
def interpLoop (px py : Memory) (v : Byte) (js : List Nat) : List Nat → Byte → Nat → Option Byte × Nat
  | [], sum, k => (some sum, k)
  | i :: is, sum, k =>
    match basisLoop px v i js 0x01#8 k with
    | (none, k') => (none, k')
    | (some l, k') =>
      let y := memRead py i k'
      interpLoop px py v js is (gadd sum (gmul y.1 l)) y.2

/-- The point numbers 0 to `PLAST` in ascending order (rules R29, R146). -/
def pointNumbers (u : Gfau) : List Nat := List.range (u.plast.toNat + 1)

/-- The whole of `INTERP`'s computation (rule R146). -/
def interpolate (v : Byte) (u : Gfau) (k : Nat) : Option Byte × Nat :=
  interpLoop u.px u.py v (pointNumbers u) (pointNumbers u) 0x00#8 k

/-- `INTERP v` (rules R146, R147): on `DIV0` there is no partial sum and only `STATUS.DZ` is set. -/
def interpReply (v : Byte) (u : Gfau) (k : Nat) : Reply :=
  replyOrDiv0 (interpolate v u k).1 u (interpolate v u k).2

/-- `INTERP`: the machine runs `interpReply`. -/
def execInterp (v : Byte) (s : State) : Host.Outcome State Fault Refusal :=
  answer (interpReply v) s

end Sys2Proof.Machine
end

