-- ==== Sys2Proof/Machine/PolyEval.lean ====
section
/-! DEFINITION. The polynomial evaluator's commands `LDC`, `RDC`, `SETDEG`, `RDDEG`, `EVAL`
(42_poly_eval.md rules R120 to R125). -/

namespace Sys2Proof.Machine

/-- `LDC i, v`: `COEF[i] <- v` and nothing else (rule R120). -/
def ldcReply (i v : Byte) (u : Gfau) (k : Nat) : Reply := replyDone (writeEntry .coef i v u) k

/-- `LDC`: the machine runs `ldcReply`. -/
def execLdc (i v : Byte) (s : State) : Host.Outcome State Fault Refusal :=
  answer (ldcReply i v) s

/-- `RDC i` (rule R121). -/
def rdcReply (i : Byte) (u : Gfau) (k : Nat) : Reply := readReply .coef i u k

/-- `RDC`: the machine runs `rdcReply`. -/
def execRdc (i : Byte) (s : State) : Host.Outcome State Fault Refusal :=
  answer (rdcReply i) s

/-- `SETDEG d`: `CDEG <- d` (rule R122). -/
def setdegReply (d : Byte) (u : Gfau) (k : Nat) : Reply := replyDone { u with cdeg := d } k

/-- `SETDEG`: the machine runs `setdegReply`. -/
def execSetdeg (d : Byte) (s : State) : Host.Outcome State Fault Refusal :=
  answer (setdegReply d) s

/-- `RDDEG` (rule R123). -/
def rddegReply (u : Gfau) (k : Nat) : Reply := replyOk u.cdeg u k

/-- `RDDEG`: the machine runs `rddegReply`. -/
def execRddeg (s : State) : Host.Outcome State Fault Refusal :=
  answer rddegReply s

/-- Horner's loop (rule R124) with coefficients `n - 1` down to 0 still to come, `k` free bytes drawn
before it. Answers the accumulator and how many free bytes have been drawn after it. -/
def hornerLoop (coef : Memory) (x : Byte) : Nat → Byte → Nat → Byte × Nat
  | 0, acc, k => (acc, k)
  | n + 1, acc, k =>
    let c := memRead coef n k
    hornerLoop coef x n (gadd (gmul acc x) c.1) c.2

/-- The whole of `EVAL`'s loop: `for i = CDEG downto 0`, the accumulator starting at 0x00 (rule R124). -/
def horner (x : Byte) (u : Gfau) (k : Nat) : Byte × Nat :=
  hornerLoop u.coef x (u.cdeg.toNat + 1) 0x00#8 k

/-- `EVAL x` (rule R124): no state of the unit is written and there is no failure mode. -/
def evalReply (x : Byte) (u : Gfau) (k : Nat) : Reply := replyOk (horner x u k).1 u (horner x u k).2

/-- `EVAL`: the machine runs `evalReply`. -/
def execEval (x : Byte) (s : State) : Host.Outcome State Fault Refusal :=
  answer (evalReply x) s

end Sys2Proof.Machine
end

