-- ==== Sys2Proof/Machine/System.lean ====
section
/-! DEFINITION. The system commands `RDST`, `CLRS`, `NOP` (44_system.md rules R160 to R163). -/

namespace Sys2Proof.Machine

/-- `RDST`: reading does not clear the flags (rule R160). -/
def rdstReply (u : Gfau) (k : Nat) : Reply := replyOk (readStatus u) u k

/-- `RDST`: the machine runs `rdstReply`. -/
def execRdst (s : State) : Host.Outcome State Fault Refusal :=
  answer rdstReply s

/-- `CLRS`: `STATUS <- 0x00` (rule R161). -/
def clrsReply (u : Gfau) (k : Nat) : Reply := replyDone (clearStatus u) k

/-- `CLRS`: the machine runs `clrsReply`. -/
def execClrs (s : State) : Host.Outcome State Fault Refusal :=
  answer clrsReply s

/-- `NOP`: a response and no other effect (rule R162). -/
def nopReply (u : Gfau) (k : Nat) : Reply := replyDone u k

/-- `NOP`: the machine runs `nopReply`. -/
def execNop (s : State) : Host.Outcome State Fault Refusal :=
  answer nopReply s

end Sys2Proof.Machine
end

