-- ==== Sys2Proof/Machine/Dispatch.lean ====
section
/-! DEFINITION. What each command does: one arm per constructor of `Instr` (30_encoding.md rule R76). -/

namespace Sys2Proof.Machine

def exec (i : Instr) (s : State) : Host.Outcome State Fault Refusal :=
  match i with
  | .gadd a b => Sys2Proof.Machine.execGadd a b s
  | .gsub a b => Sys2Proof.Machine.execGsub a b s
  | .gmul a b => Sys2Proof.Machine.execGmul a b s
  | .gdiv a b => Sys2Proof.Machine.execGdiv a b s
  | .ginv a => Sys2Proof.Machine.execGinv a s
  | .ldc n v => Sys2Proof.Machine.execLdc n v s
  | .rdc n => Sys2Proof.Machine.execRdc n s
  | .setdeg d => Sys2Proof.Machine.execSetdeg d s
  | .rddeg => Sys2Proof.Machine.execRddeg s
  | .eval x => Sys2Proof.Machine.execEval x s
  | .ldp n x y => Sys2Proof.Machine.execLdp n x y s
  | .rdpx n => Sys2Proof.Machine.execRdpx n s
  | .rdpy n => Sys2Proof.Machine.execRdpy n s
  | .setpn n => Sys2Proof.Machine.execSetpn n s
  | .rdpn => Sys2Proof.Machine.execRdpn s
  | .interp v => Sys2Proof.Machine.execInterp v s
  | .rdst => Sys2Proof.Machine.execRdst s
  | .clrs => Sys2Proof.Machine.execClrs s
  | .nop => Sys2Proof.Machine.execNop s

end Sys2Proof.Machine
end

