-- ==== Sys2Proof/Machine/Port.lean ====
section
/-! DEFINITION. The command port (70_reset_and_hazards.md rules R190 to R192, 20_memory.md rules R56, R57):
the unit takes the host's events one at a time, in order. -/

namespace Sys2Proof.Machine

/-- Take the host's next event out of the inbox; `none` when the host offers nothing. -/
def takeEvent (s : State) : Option (HostEvent × State) :=
  match s.inbox with
  | [] => none
  | e :: es => some (e, { s with inbox := es })

/-- Serve an accepted command word: decode it, then execute the command, or `raise ILLEGAL`. Decoding comes
first, so an illegal word performs no part of any command (rules R75, R172, R177). -/
def serveWord (w : CmdWord) (s : State) : Host.Outcome State Fault Refusal :=
  match decode w with
  | .ok i => exec i s
  | .error _ => answer (raiseFault .illegal) s

/-- Serve one event of the host. An abandoned command has no response, and what it did cannot be observed
after the reset (rule R190). -/
def serve (e : HostEvent) (s : State) : Host.Outcome State Fault Refusal :=
  match e with
  | .command w => serveWord w s
  | .reset => .next (resetUnit s)
  | .abandon _ => .next (resetUnit s)

/-- One step of the unit. With no event from the host the unit is idle and all its state survives
(rules R182, R203). -/
def unitStep (s : State) : Host.Outcome State Fault Refusal :=
  match takeEvent s with
  | none => .next s
  | some (e, s') => serve e s'

/-- The host offers a command word next, before the events it has still to issue. -/
def offer (w : CmdWord) (s : State) : State :=
  { s with inbox := .command w :: s.inbox }

end Sys2Proof.Machine
end

