-- ==== Sys2Proof/Machine/Step.lean ====
section
/-! DEFINITION. The step of the machine, and the placing of one command where the step takes its next one. -/

namespace Sys2Proof.Machine

/-- One step: the unit serves the host's next event (Machine/Port.lean). -/
def step (s : State) : Host.Outcome State Fault Refusal := unitStep s

/-- The state in which the host offers, next, the command word of a row of the opcode table. GFAU fetches
nothing (rules R32, R59): the word the host presents is the word the next step executes (assumption 2). -/
def State.withFetchWord (s : State) (nbits w : Nat) : State := offer (tableWord nbits w) s

end Sys2Proof.Machine
end

