-- ==== Sys2Proof/Machine/Assembler.lean ====
section
/-! DEFINITION. The assembler syntax of 30_encoding.md rule R80: one command per line, the mnemonic in upper
case, then the operands separated by commas, decimal or hexadecimal with `0x`, a semicolon starting a
comment. It is a notation for programs; the unit itself never sees text. -/

namespace Sys2Proof.Machine

/-- The command an assembler line stands for; a line that is not well-formed is an assembly error, not an
encoding (rule R80). -/
def assembleLine (l : AsmLine) : Option Instr :=
  if l.wellFormed then
    match (opcodeMap.find? (fun r => r.mnemonic == l.mnemonic)).map OpRow.form, l.operands with
    | some (.z i), [] => some i
    | some (.a f), [a] => some (f (BitVec.ofNat 8 a))
    | some (.ab f), [a, b] => some (f (BitVec.ofNat 8 a) (BitVec.ofNat 8 b))
    | some (.abc f), [a, b, c] => some (f (BitVec.ofNat 8 a) (BitVec.ofNat 8 b) (BitVec.ofNat 8 c))
    | _, _ => none
  else none

/-- The value of a digit in a base up to 16; hexadecimal letters of either case (assumption 8). -/
def digitValue (base : Nat) (ch : Char) : Option Nat :=
  let n := ch.toNat
  let d :=
    if 48 ≤ n ∧ n ≤ 57 then n - 48
    else if 97 ≤ n ∧ n ≤ 102 then n - 87
    else if 65 ≤ n ∧ n ≤ 70 then n - 55
    else 16
  if d < base then some d else none

/-- The value of a run of digits, given the value of the digits before it. -/
def digitsValue (base : Nat) : List Char → Nat → Option Nat
  | [], acc => some acc
  | ch :: rest, acc =>
    match digitValue base ch with
    | some d => digitsValue base rest (acc * base + d)
    | none => none

/-- An operand: decimal, or hexadecimal with `0x`; at least one digit (rule R80). -/
def parseNumber : List Char → Option Nat
  | [] => none
  | '0' :: 'x' :: [] => none
  | '0' :: 'x' :: rest => digitsValue 16 rest 0
  | digits => digitsValue 10 digits 0

/-- Spaces and tabs separate the parts of a line (assumption 8). -/
def isBlank (ch : Char) : Bool := ch == ' ' || ch == '\t'

/-- Drop blanks at both ends. -/
def trimBlanks (cs : List Char) : List Char := ((cs.dropWhile isBlank).reverse.dropWhile isBlank).reverse

/-- Cut a run of characters at every comma. -/
def splitCommas : List Char → List Char → List (List Char)
  | [], part => [part.reverse]
  | ch :: rest, part => if ch == ',' then part.reverse :: splitCommas rest [] else splitCommas rest (ch :: part)

/-- Read every operand, or none of them. -/
def parseOperands : List (List Char) → Option (List Nat)
  | [] => some []
  | p :: ps =>
    match parseNumber (trimBlanks p), parseOperands ps with
    | some n, some ns => some (n :: ns)
    | _, _ => none

/-- A line of text as an assembler line: the comment goes, the mnemonic ends at the first blank, and the
operands are what commas separate after it (rule R80). -/
def parseLine (text : String) : Option AsmLine :=
  let body := trimBlanks (text.toList.takeWhile (fun ch => !(ch == ';')))
  let mnemonic := body.takeWhile (fun ch => !isBlank ch)
  let rest := trimBlanks (body.dropWhile (fun ch => !isBlank ch))
  let operands := if rest.isEmpty then some [] else parseOperands (splitCommas rest [])
  operands.map (fun ns => { mnemonic := String.ofList mnemonic, operands := ns })

/-- The command word a line of text assembles to (rule R80). -/
def assemble (text : String) : Option CmdWord :=
  match parseLine text with
  | some l => (assembleLine l).map encode
  | none => none

end Sys2Proof.Machine
end

