-- ==== Sys2Proof/Machine/Unit.lean ====
section
/-! DEFINITION. The step of GFAU as the spec puts it: "the host gives a word, the unit gives back a word and a
new state" (70_reset_and_hazards.md rule R191; 10_state.md rules R20, R36). The machine of Machine/Step.lean is
this step with the port around it. -/

namespace Sys2Proof.Machine

/-- What the unit makes of a command (30_encoding.md rule R76). -/
def commandReply (i : Instr) (u : Gfau) (k : Nat) : Reply :=
  match i with
  | .gadd a b => gaddReply a b u k
  | .gsub a b => gsubReply a b u k
  | .gmul a b => gmulReply a b u k
  | .gdiv a b => gdivReply a b u k
  | .ginv a => ginvReply a u k
  | .ldc n v => ldcReply n v u k
  | .rdc n => rdcReply n u k
  | .setdeg d => setdegReply d u k
  | .rddeg => rddegReply u k
  | .eval x => evalReply x u k
  | .ldp n x y => ldpReply n x y u k
  | .rdpx n => rdpxReply n u k
  | .rdpy n => rdpyReply n u k
  | .setpn n => setpnReply n u k
  | .rdpn => rdpnReply u k
  | .interp v => interpReply v u k
  | .rdst => rdstReply u k
  | .clrs => clrsReply u k
  | .nop => nopReply u k

/-- THE STEP OF GFAU: the command word is its input, the response word its output, and its state is `Gfau`
(rule R36); `k` numbers the free bytes (assumption 1). Decoding comes first, so an illegal word performs no
part of any command (rules R75, R172, R177). -/
def gfauStep (w : CmdWord) (u : Gfau) (k : Nat) : Reply :=
  match decode w with
  | .ok i => commandReply i u k
  | .error _ => raiseFault .illegal u k

/-- A program as the unit sees it: the words the host issues, one after the other (rules R32, R56). Answers
what a claim about a program is about (rule R203): the unit's final state and the responses in order; and how
many free bytes have been drawn. -/
def runWords : List CmdWord → Gfau → Nat → Gfau × List Response × Nat
  | [], u, k => (u, [], k)
  | w :: ws, u, k =>
    let r := gfauStep w u k
    let rest := runWords ws r.unit r.draws
    (rest.1, r.response :: rest.2.1, rest.2.2)

end Sys2Proof.Machine
end

