-- ==== Sys2Proof/Safety.lean ====
section
/-! DEFINITION. The terms claims use: the invariant of the machine, responses without a fault, memories written
where a command reads, and the mathematical values of the two kernels (rules R125, R146). -/

namespace Sys2Proof

open Sys2Proof.Machine

/-- The same entries of `PX` and `PY` are written: one `LDP` writes both halves of a point (rules R25, R54). -/
abbrev PointsPaired (s : State) : Prop := ∀ i : Byte, (stored .px s.toGfau i).isSome = (stored .py s.toGfau i).isSome

/-- The invariant of the machine: each memory in its canonical form (the model's own, assumption 5), every
point written whole, and the reserved bits of `STATUS` 0 (rules R25, R30, R54). -/
structure Inv (s : State) : Prop where
  coefWf : s.coef.wf
  pxWf : s.px.wf
  pyWf : s.py.wf
  paired : PointsPaired s
  reserved : s.status &&& 0xFC#8 = 0x00#8

/-- None of these responses reports a fault. That no command of a run faulted is a fact about its responses,
which `CLRS` does not clear (rules R161, R203). -/
abbrev AllOk (rs : List Response) : Prop := ∀ r ∈ rs, r.code = 0x00#8

/-- The coefficients `COEF[0]` to `COEF[CDEG]` are written, and `c` is what they hold (rules R28, R194). -/
abbrev CoefHolds (s : State) (c : Nat → Byte) : Prop := ∀ i ≤ s.cdeg.toNat, memLoad s.coef i = some (c i)

/-- The points 0 to `PLAST` are written, and `x`, `y` are what they hold (rules R29, R194). -/
abbrev PointsHold (s : State) (x y : Nat → Byte) : Prop :=
  ∀ i ≤ s.plast.toNat, memLoad s.px i = some (x i) ∧ memLoad s.py i = some (y i)

/-- The values of `x` at 0 to `n` are pairwise different. -/
abbrev DistinctUpTo (n : Nat) (x : Nat → Byte) : Prop := ∀ i ≤ n, ∀ j ≤ n, i ≠ j → x i ≠ x j

/-- `x` multiplied by itself `i` times; 0x01 for `i` = 0, even for `x` = 0x00 (rule R125). -/
def gpow (x : Byte) : Nat → Byte
  | 0 => 0x01#8
  | i + 1 => gmul (gpow x i) x

/-- The field sum of `f 0` to `f n`. -/
def gsumTo (f : Nat → Byte) : Nat → Byte
  | 0 => f 0
  | n + 1 => gadd (gsumTo f n) (f (n + 1))

/-- The value at `x` of the polynomial with coefficients `c 0` to `c n` (rule R125, first bullet). -/
def polyValue (c : Nat → Byte) (n : Nat) (x : Byte) : Byte := gsumTo (fun i => gmul (c i) (gpow x i)) n

/-- The quotient of two field elements where it exists; used only with a divisor other than 0x00. -/
def quotient (a b : Byte) : Byte := (gdiv a b).getD 0x00#8

/-- The product over `j` from 0 to `n`, `j` other than `i`, of (v - x_j)/(x_i - x_j): the basis value of
rule R146. -/
def basisValue (x : Nat → Byte) (n i : Nat) (v : Byte) : Byte :=
  (((List.range (n + 1)).filter (fun j => j != i)).map
    (fun j => quotient (gsub v (x j)) (gsub (x i) (x j)))).foldr gmul 0x01#8

/-- The interpolated value at `v` through the points 0 to `n`: the sum of y_i times the basis value of
point i (rule R146). -/
def lagrangeValue (x y : Nat → Byte) (n : Nat) (v : Byte) : Byte :=
  gsumTo (fun i => gmul (y i) (basisValue x n i v)) n

end Sys2Proof
end

