-- ==== Sys2Proof/Certificates/Slice0/Obligations.lean ====
section
/-! DEFINITION. The statements about GFAU, for the provers. Each docstring names the rule it formalises.
The unit's own step `gfauStep` takes a command word and answers a response and the unit's state `Gfau`. Around
it, a word stands at the head of `inbox` and its response at the end of `outbox`: the model's own way of
writing input and output for a machine that is a state and a step (assumption 2). `draws` is the model's own too (assumption 1): no
statement rests on its value or on a value of `Config.freeByte`. -/

open Sys2Proof Sys2Proof.Machine

/-! ## Encoding -/

/-- Rule R75, and decisions D14 and D16: decoding the word of any command gives the command back, every
operand at every value. -/
def Obligations.DecodeOfEncodeIsTheCommand : Prop :=
  ∀ i : Instr, decode (encode i) = .ok i

/-- A word has at most one reading: a word that decodes to a command is that command's word, so no bit of a
legal word is dropped (rules R75, R77). -/
def Obligations.LegalWordIsTheEncodingOfItsCommand : Prop :=
  ∀ (w : CmdWord) (i : Instr), decode w = .ok i → encode i = w

/-- Rule R71: a word is legal exactly when `(cmd & mask) == match` holds for some command, with
`match = op * 2^24`, and then it is that command. -/
def Obligations.LegalWordsAreThoseThatMatchAMask : Prop :=
  ∀ w : CmdWord,
    ((∃ i, decode w = .ok i) ↔
      ∃ j : Instr, w &&& j.format.mask = (opcodeOf j).setWidth 32 <<< 24) ∧
    ∀ i j : Instr, decode w = .ok i → w &&& j.format.mask = (opcodeOf j).setWidth 32 <<< 24 →
      opcodeOf i = opcodeOf j ∧ i.format = j.format

/-- Rule R78: the reserved opcode values are 0x00, 0x06 to 0x0F, 0x15 to 0x1F, 0x26 to 0x2F and 0x33 to
0xFF, and a word is rejected for its opcode exactly when it has one of them, whatever its operand fields
hold. -/
def Obligations.ReservedOpcodesAreRejected : Prop :=
  ∀ w : CmdWord, decode w = .error .reservedOpcode ↔
    (let op := (cmdOp w).toNat
     op = 0x00 ∨ (0x06 ≤ op ∧ op ≤ 0x0F) ∨ (0x15 ≤ op ∧ op ≤ 0x1F) ∨ (0x26 ≤ op ∧ op ≤ 0x2F) ∨ 0x33 ≤ op)

/-- Rule R77: a word whose opcode is a command's but which has a non-zero bit in a field the command's
format does not use is illegal. -/
def Obligations.NonzeroUnusedFieldIsRejected : Prop :=
  ∀ (i : Instr) (w : CmdWord), cmdOp w = opcodeOf i → w &&& i.format.mask &&& 0x00FFFFFF#32 ≠ 0#32 →
    decode w = .error .unusedFieldNonzero

/-- Words written out from the spec's examples decode to the commands they stand for, one for every family
and format (rules R77, R80, R107, R110, R122, R124, R140, R146, R160). -/
def Obligations.SpecExampleWordsDecode : Prop :=
  decode 0x03B65300#32 = .ok (.gmul 0xb6#8 0x53#8) ∧
  decode 0x02365300#32 = .ok (.gsub 0x36#8 0x53#8) ∧
  decode 0x05530000#32 = .ok (.ginv 0x53#8) ∧
  decode 0x10023C00#32 = .ok (.ldc 0x02#8 0x3c#8) ∧
  decode 0x12020000#32 = .ok (.setdeg 0x02#8) ∧
  decode 0x14020000#32 = .ok (.eval 0x02#8) ∧
  decode 0x200002ED#32 = .ok (.ldp 0x00#8 0x02#8 0xed#8) ∧
  decode 0x25000000#32 = .ok (.interp 0x00#8) ∧
  decode 0x30000000#32 = .ok .rdst ∧
  decode 0x05AB0100#32 = .error .unusedFieldNonzero ∧
  decode 0x00000000#32 = .error .reservedOpcode

/-- Rule R80: an assembler line stands for a command exactly when its mnemonic exists, no operand is missing
or extra and none is above 255; every command has a line; and the three lines the rule prints assemble to
the words it prints. -/
def Obligations.AssemblerAcceptsExactlyWellFormedLines : Prop :=
  (∀ l : AsmLine, (assembleLine l).isSome = l.wellFormed) ∧
  (∀ i : Instr, ∃ l : AsmLine, assembleLine l = some i) ∧
  assemble "GMUL 0xb6, 0x53      ; assembles to 0x03B65300" = some 0x03B65300#32 ∧
  assemble "LDP  0, 0x02, 0xed   ; assembles to 0x200002ED" = some 0x200002ED#32 ∧
  assemble "RDST                 ; assembles to 0x30000000" = some 0x30000000#32

/-- Rule R73: the outcome codes are 0x00, 0x01 and 0x02 and no other, and rule R72: the response word has
the code in bits 15:8 and in bits 7:0 the result, or after a fault whatever the unit drives there. -/
def Obligations.ResponseWordCarriesCodeAndData : Prop :=
  (∀ v, (Response.ok v).code = 0x00#8) ∧
  (Response.fault .div0).code = 0x01#8 ∧
  (Response.fault .illegal).code = 0x02#8 ∧
  (∀ (r : Response) (d : Byte), (r.word d).extractLsb' 8 8 = r.code) ∧
  (∀ v d : Byte, ((Response.ok v).word d).extractLsb' 0 8 = v) ∧
  (∀ (c : FaultCode) (d : Byte), ((Response.fault c).word d).extractLsb' 0 8 = d)

/-! ## The field -/

/-- Rule R21: `EXP[0]` is 0x01, each further entry is the one before times 0x03 by the table-free product,
the powers repeat with period 255, every value 0x01 to 0xff occurs exactly once and 0x00 never. -/
def Obligations.ExpTableHoldsThePowersOfTheGenerator : Prop :=
  expTable 0 = 0x01#8 ∧
  (∀ k : Fin 255, k.val + 1 < 255 → expTable (k + 1) = gmulRef (expTable k) 0x03#8) ∧
  gmulRef (expTable 254) 0x03#8 = 0x01#8 ∧
  (∀ a : Byte, a ≠ 0x00#8 → ∃ k, expTable k = a ∧ ∀ k', expTable k' = a → k' = k) ∧
  (∀ k, expTable k ≠ 0x00#8)

/-- Rule R22: `LOG[a]` is the unique k with `EXP[k] = a`; `LOG[0x00]` does not exist. -/
def Obligations.LogTableInvertsTheExpTable : Prop :=
  (∀ (a : Byte) (k : Fin 255), logTable a = some k ↔ expTable k = a) ∧
  logTable 0x00#8 = none ∧
  (∀ a : Byte, a ≠ 0x00#8 → ∃ k, logTable a = some k)

/-- Rule R102: the table definition and the table-free definition of the product are equal for all operand
pairs. -/
def Obligations.TableProductIsShiftAndXorProduct : Prop :=
  ∀ a b : Byte, gmul a b = gmulRef a b

/-- Rule R105: no result depends on the generator. Take the tables of any element whose powers run through
all non-zero elements: the table algorithms compute the same products and quotients from them. -/
def Obligations.ResultsDoNotDependOnTheGenerator : Prop :=
  ∀ (g : Byte) (exp : Fin 255 → Byte) (log : Byte → Option (Fin 255)),
    exp 0 = 0x01#8 →
    (∀ k : Fin 255, exp (k + 1) = gmulRef (exp k) g) →
    (∀ a : Byte, a ≠ 0x00#8 → ∃ k, exp k = a) →
    (∀ k : Fin 255, log (exp k) = some k) →
    log 0x00#8 = none →
    ∀ a b : Byte, tableMul exp log a b = gmul a b ∧ tableDiv exp log a b = gdiv a b

/-- Rule R111: the laws of the field functions, row by row of its table. -/
def Obligations.FieldFunctionsObeyTheFieldLaws : Prop :=
  (∀ a, gadd a 0x00#8 = a) ∧
  (∀ a, gadd a a = 0x00#8) ∧ (∀ a b, gadd (gadd a b) b = a) ∧
  (∀ a b, gadd a b = gadd b a) ∧ (∀ a b c, gadd (gadd a b) c = gadd a (gadd b c)) ∧
  (∀ a b, gsub a b = gadd a b) ∧
  (∀ a, gmul a 0x00#8 = 0x00#8 ∧ gmul 0x00#8 a = 0x00#8) ∧
  (∀ a, gmul a 0x01#8 = a ∧ gmul 0x01#8 a = a) ∧
  (∀ a b, gmul a b = gmul b a) ∧ (∀ a b c, gmul (gmul a b) c = gmul a (gmul b c)) ∧
  (∀ a b c, gmul a (gadd b c) = gadd (gmul a b) (gmul a c)) ∧
  (∀ a b, gmul a b = 0x00#8 → a = 0x00#8 ∨ b = 0x00#8) ∧
  (∀ a, gdiv a 0x00#8 = none) ∧
  (∀ b, b ≠ 0x00#8 → gdiv 0x00#8 b = some 0x00#8) ∧
  (∀ a b, b ≠ 0x00#8 → gdiv (gmul a b) b = some a) ∧
  (∀ a b, b ≠ 0x00#8 → (gdiv a b).map (fun d => gmul d b) = some a) ∧
  (∀ a, a ≠ 0x00#8 → gdiv a a = some 0x01#8) ∧ (∀ a, gdiv a 0x01#8 = some a) ∧
  (∀ a, a ≠ 0x00#8 → (ginv a).map (gmul a) = some 0x01#8 ∧ (ginv a).bind ginv = some a) ∧
  ginv 0x01#8 = some 0x01#8

/-! ## The field commands -/

/-- Rules R106 and R107 with R100 and R101: `GADD` and `GSUB` respond with the bitwise XOR of their operands
and write no state; a `GADD` pattern with a non-zero field `c` is no command. -/
def Obligations.GaddAndGsubRespondWithXor : Prop :=
  ∀ (a b : Byte) (s : State),
    exec (.gadd a b) s = .next { s with outbox := s.outbox ++ [.ok (a ^^^ b)] } ∧
    exec (.gsub a b) s = .next { s with outbox := s.outbox ++ [.ok (a ^^^ b)] } ∧
    encode (.gadd a b) = 0x01#8 ++ a ++ b ++ 0x00#8 ∧
    (∀ c, c ≠ 0x00#8 → decode (0x01#8 ++ a ++ b ++ c) = .error .unusedFieldNonzero) ∧
    encode (.gsub a b) = 0x02#8 ++ a ++ b ++ 0x00#8

/-- Rule R108: `GMUL` responds with the product, here the table-free one of rule R102, and writes no state. -/
def Obligations.GmulRespondsWithTheProduct : Prop :=
  ∀ (a b : Byte) (s : State),
    exec (.gmul a b) s = .next { s with outbox := s.outbox ++ [.ok (gmulRef a b)] } ∧
    encode (.gmul a b) = 0x03#8 ++ a ++ b ++ 0x00#8

/-- Rules R109 and R103: `GDIV` by 0x00 ends with `DIV0` for every dividend; by any other divisor it responds
with the unique d such that d * b = a, and writes no state. -/
def Obligations.GdivRespondsWithTheUniqueQuotient : Prop :=
  ∀ (a b : Byte) (s : State),
    (b = 0x00#8 → exec (.gdiv a b) s =
      .next { s with status := s.status ||| 0x01#8, outbox := s.outbox ++ [.fault .div0] }) ∧
    (b ≠ 0x00#8 → ∃ d, exec (.gdiv a b) s = .next { s with outbox := s.outbox ++ [.ok d] } ∧
      gmulRef d b = a ∧ ∀ d', gmulRef d' b = a → d' = d) ∧
    encode (.gdiv a b) = 0x04#8 ++ a ++ b ++ 0x00#8

/-- Rules R110 and R104: `GINV 0x00` ends with `DIV0`; otherwise `GINV a` responds with the unique inverse
of `a`; and it does what `GDIV 0x01, a` does. -/
def Obligations.GinvRespondsWithTheUniqueInverse : Prop :=
  ∀ (a : Byte) (s : State),
    (a = 0x00#8 → exec (.ginv a) s =
      .next { s with status := s.status ||| 0x01#8, outbox := s.outbox ++ [.fault .div0] }) ∧
    (a ≠ 0x00#8 → ∃ d, exec (.ginv a) s = .next { s with outbox := s.outbox ++ [.ok d] } ∧
      gmulRef d a = 0x01#8 ∧ ∀ d', gmulRef d' a = 0x01#8 → d' = d) ∧
    exec (.ginv a) s = exec (.gdiv 0x01#8 a) s ∧
    encode (.ginv a) = 0x05#8 ++ a ++ 0x00#8 ++ 0x00#8

/-! ## Loading and reading -/

/-- Rule R120: `LDC i, v` makes `COEF[i]` hold `v`; every other entry of `COEF`, and every other piece of
state, `CDEG` among them, is unchanged. -/
def Obligations.LdcWritesOneCoefficient : Prop :=
  ∀ (i v : Byte) (s : State),
    (∃ m, exec (.ldc i v) s = .next { s with coef := m, outbox := s.outbox ++ [.ok 0x00#8] } ∧
      ∀ j : Nat, memLoad m j = if j = i.toNat then some v else memLoad s.coef j) ∧
    encode (.ldc i v) = 0x10#8 ++ i ++ v ++ 0x00#8

/-- Rule R140: `LDP i, x, y` makes `PX[i]` hold `x` and `PY[i]` hold `y`; every other entry, and every other
piece of state, `PLAST` among them, is unchanged, whatever x-coordinates are stored; every word with opcode 0x20 is
legal. -/
def Obligations.LdpWritesOnePoint : Prop :=
  ∀ (i x y : Byte) (s : State),
    (∃ mx my, exec (.ldp i x y) s = .next { s with px := mx, py := my, outbox := s.outbox ++ [.ok 0x00#8] } ∧
      (∀ j : Nat, memLoad mx j = if j = i.toNat then some x else memLoad s.px j) ∧
      ∀ j : Nat, memLoad my j = if j = i.toNat then some y else memLoad s.py j) ∧
    encode (.ldp i x y) = 0x20#8 ++ i ++ x ++ y ∧
    decode (0x20#8 ++ i ++ x ++ y) = .ok (.ldp i x y)

/-- Rules R121, R141 and R142: `RDC`, `RDPX` and `RDPY` respond with the entry's byte and write no state; for
an entry never written since reset they respond with some byte. -/
def Obligations.ReadCommandsRespondWithTheEntry : Prop :=
  ∀ (i : Byte) (s : State),
    (∀ v, stored .coef s.toGfau i = some v → exec (.rdc i) s = .next { s with outbox := s.outbox ++ [.ok v] }) ∧
    (stored .coef s.toGfau i = none →
      ∃ v k, exec (.rdc i) s = .next { s with draws := k, outbox := s.outbox ++ [.ok v] }) ∧
    (∀ v, stored .px s.toGfau i = some v → exec (.rdpx i) s = .next { s with outbox := s.outbox ++ [.ok v] }) ∧
    (stored .px s.toGfau i = none →
      ∃ v k, exec (.rdpx i) s = .next { s with draws := k, outbox := s.outbox ++ [.ok v] }) ∧
    (∀ v, stored .py s.toGfau i = some v → exec (.rdpy i) s = .next { s with outbox := s.outbox ++ [.ok v] }) ∧
    (stored .py s.toGfau i = none →
      ∃ v k, exec (.rdpy i) s = .next { s with draws := k, outbox := s.outbox ++ [.ok v] }) ∧
    encode (.rdc i) = 0x11#8 ++ i ++ 0x00#8 ++ 0x00#8 ∧
    encode (.rdpx i) = 0x21#8 ++ i ++ 0x00#8 ++ 0x00#8 ∧
    encode (.rdpy i) = 0x22#8 ++ i ++ 0x00#8 ++ 0x00#8

/-- Rules R122 and R123: `SETDEG d` writes `CDEG` only, for every `d`; `RDDEG` responds with `CDEG` and
writes no state; directly after reset it responds 0x00. -/
def Obligations.SetdegWritesAndRddegReadsCdeg : Prop :=
  (∀ (d : Byte) (s : State),
    exec (.setdeg d) s = .next { s with cdeg := d, outbox := s.outbox ++ [.ok 0x00#8] } ∧
    encode (.setdeg d) = 0x12#8 ++ d ++ 0x00#8 ++ 0x00#8) ∧
  (∀ s : State, exec .rddeg s = .next { s with outbox := s.outbox ++ [.ok s.cdeg] }) ∧
  encode .rddeg = 0x13000000#32 ∧
  exec .rddeg State.reset = .next { State.reset with outbox := [.ok 0x00#8] }

/-- Rules R143 and R144: `SETPN n` writes `PLAST` only, for every `n`; `RDPN` responds with `PLAST` and
writes no state; directly after reset it responds 0x00. -/
def Obligations.SetpnWritesAndRdpnReadsPlast : Prop :=
  (∀ (n : Byte) (s : State),
    exec (.setpn n) s = .next { s with plast := n, outbox := s.outbox ++ [.ok 0x00#8] } ∧
    encode (.setpn n) = 0x23#8 ++ n ++ 0x00#8 ++ 0x00#8) ∧
  (∀ s : State, exec .rdpn s = .next { s with outbox := s.outbox ++ [.ok s.plast] }) ∧
  encode .rdpn = 0x24000000#32 ∧
  exec .rdpn State.reset = .next { State.reset with outbox := [.ok 0x00#8] }

/-- Rules R160, R161 and R162: `RDST` responds `{0b000000, IL, DZ}` and clears nothing; `CLRS` sets `STATUS`
to 0x00 and nothing else; `NOP` responds and does nothing else. -/
def Obligations.SystemCommandsReadAndClearStatus : Prop :=
  (∀ s : State, exec .rdst s = .next { s with
    outbox := s.outbox ++ [.ok (0#6 ++ BitVec.ofBool (s.status.getLsbD 1) ++ BitVec.ofBool (s.status.getLsbD 0))] }) ∧
  (∀ s : State, exec .clrs s = .next { s with status := 0x00#8, outbox := s.outbox ++ [.ok 0x00#8] }) ∧
  (∀ s : State, exec .nop s = .next { s with outbox := s.outbox ++ [.ok 0x00#8] }) ∧
  encode .rdst = 0x30000000#32 ∧ encode .clrs = 0x31000000#32 ∧ encode .nop = 0x32000000#32

/-! ## The polynomial evaluator -/

/-- Rule R124: over written coefficients `EVAL x` is Horner's loop: the accumulator starts at 0x00 and for
each index from `CDEG` down to 0 becomes accumulator * x + coefficient. In every state, coefficients never
written included (rule R194), it has no failure mode: it responds OK with some byte, and no state of the
spec changes. -/
def Obligations.EvalIsHornersLoop : Prop :=
  (∀ (s : State) (c : Nat → Byte) (x : Byte), CoefHolds s c →
    exec (.eval x) s = .next { s with outbox := s.outbox ++
      [.ok ((List.range (s.cdeg.toNat + 1)).foldr (fun i acc => gadd (gmul acc x) (c i)) 0x00#8)] }) ∧
  (∀ (s : State) (x : Byte),
    ∃ v k, exec (.eval x) s = .next { s with draws := k, outbox := s.outbox ++ [.ok v] }) ∧
  (∀ x : Byte, encode (.eval x) = 0x14#8 ++ x ++ 0x00#8 ++ 0x00#8)

/-- Rule R125, first bullet: the result of `EVAL x` is the field sum over i from 0 to `CDEG` of `COEF[i]`
times x to the power i, with x^0 = 0x01 even for x = 0x00. -/
def Obligations.EvalIsThePolynomialsValue : Prop :=
  ∀ (s : State) (c : Nat → Byte) (x : Byte), CoefHolds s c →
    exec (.eval x) s = .next { s with outbox := s.outbox ++ [.ok (polyValue c s.cdeg.toNat x)] }

/-- Rule R125: `EVAL 0x00` gives `COEF[0]`, `EVAL 0x01` the XOR of the coefficients in use, degree 0 gives
`COEF[0]` for every x, and the same `EVAL` twice gives the same data. -/
def Obligations.EvalAtZeroAtOneAndTwice : Prop :=
  ∀ (s : State) (c : Nat → Byte), CoefHolds s c →
    exec (.eval 0x00#8) s = .next { s with outbox := s.outbox ++ [.ok (c 0)] } ∧
    exec (.eval 0x01#8) s = .next { s with outbox := s.outbox ++ [.ok (gsumTo c s.cdeg.toNat)] } ∧
    (s.cdeg = 0x00#8 → ∀ x, exec (.eval x) s = .next { s with outbox := s.outbox ++ [.ok (c 0)] }) ∧
    ∀ x, ∃ v t, exec (.eval x) s = .next t ∧ t.outbox = s.outbox ++ [.ok v] ∧
      exec (.eval x) t = .next { t with outbox := t.outbox ++ [.ok v] }

/-! ## The Lagrange kernel -/

/-- Rules R146 and R147: over written points `INTERP v` ends with `DIV0` exactly when two different point
numbers in 0 to `PLAST` have the same x-coordinate, whatever v and the y-coordinates are, and then only
`STATUS.DZ` changes; otherwise it responds with the sum of y_i times the product over j != i of
(v - x_j)/(x_i - x_j), and no state changes. With one point in use it cannot fault; that it cannot even
where that point was never written is read from the pseudocode by inference (assumption 12, DEDUCED; rule
R194 leaves the outcome over unwritten entries unspecified). -/
def Obligations.InterpComputesTheLagrangeSumOrFaults : Prop :=
  (∀ (s : State) (x y : Nat → Byte) (v : Byte), PointsHold s x y →
    (DistinctUpTo s.plast.toNat x → exec (.interp v) s =
      .next { s with outbox := s.outbox ++ [.ok (lagrangeValue x y s.plast.toNat v)] }) ∧
    (¬ DistinctUpTo s.plast.toNat x → exec (.interp v) s =
      .next { s with status := s.status ||| 0x01#8, outbox := s.outbox ++ [.fault .div0] })) ∧
  (∀ (s : State) (v : Byte), s.plast = 0x00#8 →
    ∃ y k, exec (.interp v) s = .next { s with draws := k, outbox := s.outbox ++ [.ok y] }) ∧
  (∀ v : Byte, encode (.interp v) = 0x25#8 ++ v ++ 0x00#8 ++ 0x00#8)

/-- Rules R146, R171 and R194: in every state, points never written included, `INTERP` answers: OK with some
byte and no state of the spec changed, or `DIV0` with only `STATUS.DZ` set. -/
def Obligations.InterpAlwaysAnswers : Prop :=
  ∀ (v : Byte) (s : State), ∃ k,
    (∃ y, exec (.interp v) s = .next { s with draws := k, outbox := s.outbox ++ [.ok y] }) ∨
    exec (.interp v) s =
      .next { s with draws := k, status := s.status ||| 0x01#8, outbox := s.outbox ++ [.fault .div0] }

/-- Rule R148: `INTERP` at a stored x-coordinate responds with that point's y, and with one point in use it
responds with `PY[0]` for every v. -/
def Obligations.InterpAtAStoredPointGivesItsY : Prop :=
  ∀ (s : State) (x y : Nat → Byte), PointsHold s x y → DistinctUpTo s.plast.toNat x →
    (∀ k ≤ s.plast.toNat, exec (.interp (x k)) s = .next { s with outbox := s.outbox ++ [.ok (y k)] }) ∧
    (s.plast = 0x00#8 → ∀ v, exec (.interp v) s = .next { s with outbox := s.outbox ++ [.ok (y 0)] })

/-- Rule R148, permutation: two states whose points in use are the same up to their order respond alike to
`INTERP v`, fault or result. -/
def Obligations.InterpIsInvariantUnderPermutation : Prop :=
  ∀ (s s' : State) (x y : Nat → Byte) (p : Nat → Nat) (v : Byte),
    s'.plast = s.plast → PointsHold s x y → PointsHold s' (fun i => x (p i)) (fun i => y (p i)) →
    (∀ i ≤ s.plast.toNat, p i ≤ s.plast.toNat) →
    (∀ i ≤ s.plast.toNat, ∀ j ≤ s.plast.toNat, p i = p j → i = j) →
    ∃ r t t', exec (.interp v) s = .next t ∧ exec (.interp v) s' = .next t' ∧
      t.outbox = s.outbox ++ [r] ∧ t'.outbox = s'.outbox ++ [r]

/-- Rule R148, recovery: where the points in use are values of the polynomial in `COEF`, at pairwise
different x and of a degree at most the number of points less one, `INTERP v` responds with that
polynomial's value at v: what `EVAL v` responds. -/
def Obligations.InterpRecoversThePolynomial : Prop :=
  ∀ (s : State) (c x y : Nat → Byte) (v : Byte),
    CoefHolds s c → PointsHold s x y → DistinctUpTo s.plast.toNat x → s.cdeg.toNat ≤ s.plast.toNat →
    (∀ i ≤ s.plast.toNat, y i = polyValue c s.cdeg.toNat (x i)) →
    exec (.interp v) s = .next { s with outbox := s.outbox ++ [.ok (polyValue c s.cdeg.toNat v)] } ∧
    exec (.eval v) s = .next { s with outbox := s.outbox ++ [.ok (polyValue c s.cdeg.toNat v)] }

/-! ## Faults and flags -/

/-- Rule R172: a command word raises `ILLEGAL` when, and only when, it does not decode; then `STATUS.IL` is
set, the response has code 0x02 and data nothing constrains, and every other piece of state keeps its
value. -/
def Obligations.IllegalIsRaisedExactlyForUndecodableWords : Prop :=
  ∀ (s : State) (w : CmdWord) (es : List HostEvent), s.inbox = .command w :: es →
    ((∃ why, decode w = .error why) → step s = .next { s with
      inbox := es, status := s.status ||| 0x02#8, outbox := s.outbox ++ [.fault .illegal] }) ∧
    ((∃ t, step s = .next t ∧ t.outbox = s.outbox ++ [.fault .illegal]) → ∃ why, decode w = .error why) ∧
    (Response.fault .illegal).code = 0x02#8 ∧ ∀ d, (Response.fault .illegal).data d = d

/-- Rule R171: `DIV0` is raised when, and only when, `GDIV` has `b` = 0x00, `GINV` has `a` = 0x00, or
`INTERP` finds two equal x-coordinates among the points in use (all of them written); then `STATUS.DZ` is
set, the response has code 0x01 and data nothing constrains, and every other piece of state keeps its
value. -/
def Obligations.Div0IsRaisedExactlyForZeroDivisors : Prop :=
  ∀ (i : Instr) (s : State) (x : Nat → Byte),
    (∀ v, i = .interp v → ∀ j ≤ s.plast.toNat, memLoad s.px j = some (x j)) →
    ((∃ t, exec i s = .next t ∧ t.outbox = s.outbox ++ [.fault .div0]) ↔
      (∃ a, i = .gdiv a 0x00#8) ∨ i = .ginv 0x00#8 ∨
        ((∃ v, i = .interp v) ∧ ¬ DistinctUpTo s.plast.toNat x)) ∧
    (∀ t, exec i s = .next t → t.outbox = s.outbox ++ [.fault .div0] →
      t = { s with status := s.status ||| 0x01#8, draws := t.draws, outbox := s.outbox ++ [.fault .div0] }) ∧
    (Response.fault .div0).code = 0x01#8 ∧ ∀ d, (Response.fault .div0).data d = d

/-- Rule R178: faults are precise. The state after a command word that ends in a fault equals the state
before it, but for the one `STATUS` bit of that fault (and the event taken and response delivered). -/
def Obligations.FaultsArePrecise : Prop :=
  ∀ (s t : State) (w : CmdWord) (es : List HostEvent) (c : FaultCode),
    s.inbox = .command w :: es → step s = .next t → t.outbox = s.outbox ++ [.fault c] →
    t = { s with
      inbox := es, status := s.status ||| flagOf c, draws := t.draws, outbox := s.outbox ++ [.fault c] }

/-- Rule R177: decoding comes first. The word 0x04360001 looks like a division by zero, and raises `ILLEGAL`
and sets only `STATUS.IL`, in every state. -/
def Obligations.IllegalComesBeforeDiv0 : Prop :=
  ∀ (s : State) (es : List HostEvent), s.inbox = .command 0x04360001#32 :: es →
    step s = .next { s with
      inbox := es, status := s.status ||| 0x02#8, outbox := s.outbox ++ [.fault .illegal] }

/-- Rule R30: the flags are sticky. Over any command word but `CLRS`, a flag is set after exactly when it
was set before or the word ended in its fault; after `CLRS` both are clear. -/
def Obligations.StatusFlagsAreSticky : Prop :=
  ∀ (s t : State) (w : CmdWord) (es : List HostEvent), s.inbox = .command w :: es → step s = .next t →
    (decode w ≠ .ok .clrs →
      (dz t.toGfau = true ↔ dz s.toGfau = true ∨ t.outbox = s.outbox ++ [.fault .div0]) ∧
      (il t.toGfau = true ↔ il s.toGfau = true ∨ t.outbox = s.outbox ++ [.fault .illegal])) ∧
    (decode w = .ok .clrs → dz t.toGfau = false ∧ il t.toGfau = false)

/-- Rule R30: `STATUS` tells, after a program without `CLRS` and without reset, whether any command in it
faulted: if both flags are clear at its end, every response it delivered is OK. -/
def Obligations.ClearStatusMeansNoCommandFaulted : Prop :=
  ∀ (ws : List CmdWord) (s t : State) (rs : List Response),
    s.inbox = ws.map HostEvent.command → (∀ w ∈ ws, decode w ≠ .ok .clrs) →
    Sys2Proof.core.run ws.length s = .next t → t.outbox = s.outbox ++ rs →
    dz t.toGfau = false → il t.toGfau = false → AllOk rs

/-- Rule R179: a word that faulted, issued again, faults again with the same code, since its outcome depends
only on the word and on state the fault did not change (for `INTERP`, the x-coordinates in use written). -/
def Obligations.FaultingWordFaultsAgain : Prop :=
  ∀ (s t : State) (w : CmdWord) (es : List HostEvent) (c : FaultCode) (x : Nat → Byte),
    (∀ v, decode w = .ok (.interp v) → ∀ j ≤ s.plast.toNat, memLoad s.px j = some (x j)) →
    s.inbox = .command w :: .command w :: es → step s = .next t → t.outbox = s.outbox ++ [.fault c] →
    ∃ u, step t = .next u ∧ u.outbox = t.outbox ++ [.fault c]

/-- Rules R30 and R179: no command's result depends on `STATUS`. Whatever `STATUS` holds, a command other
than `RDST` leaves the same responses and the same state but for `STATUS`, and `RDST` leaves the same state
but for its response. Where an entry never written is read, both runs draw the same free byte, which is the
model's choice (assumption 1). -/
def Obligations.NoResultDependsOnStatus : Prop :=
  ∀ (i : Instr) (s : State) (u : Byte), ∃ t t',
    exec i s = .next t ∧ exec i { s with status := u } = .next t' ∧
    (i ≠ .rdst → { t' with status := t.status } = t) ∧
    (i = .rdst → { t' with status := t.status, outbox := t.outbox } = t)

/-! ## The port, reset and the whole machine -/

/-- Rule R35: after reset `CDEG`, `PLAST` and `STATUS` are 0x00 and no entry of any memory is written. -/
def Obligations.ResetStateHasZeroRegistersAndUnwrittenMemories : Prop :=
  State.reset.cdeg = 0x00#8 ∧ State.reset.plast = 0x00#8 ∧ State.reset.status = 0x00#8 ∧
  (∀ (sp : Space) (i : Byte), stored sp State.reset.toGfau i = none) ∧
  State.reset.inbox = [] ∧ State.reset.outbox = []

/-- Rules R75, R56 and R57: when the word the host offers next decodes to a command, a step takes the word
out of the inbox and is `exec` of that command. -/
def Obligations.StepRunsTheDecodedCommand : Prop :=
  ∀ (s : State) (w : CmdWord) (es : List HostEvent) (i : Instr),
    s.inbox = .command w :: es → decode w = .ok i → step s = exec i { s with inbox := es }

/-- Rules R182 and R203: with nothing offered, the unit is idle and all its state survives. -/
def Obligations.IdleUnitKeepsItsState : Prop :=
  ∀ s : State, s.inbox = [] → step s = .next s

/-- Rule R190: reset sets the three registers to 0x00 and leaves no memory entry written, even where it was
written before; a command in progress is abandoned without a response. -/
def Obligations.ResetClearsRegistersAndAbandonsTheCommand : Prop :=
  ∀ (s : State) (e : HostEvent) (es : List HostEvent), s.inbox = e :: es →
    (e = .reset ∨ ∃ w, e = .abandon w) →
    ∃ t, step s = .next t ∧ t.cdeg = 0x00#8 ∧ t.plast = 0x00#8 ∧ t.status = 0x00#8 ∧
      (∀ (sp : Space) (i : Byte), stored sp t.toGfau i = none) ∧
      t.inbox = es ∧ t.outbox = s.outbox

/-- Rules R57 and R192: a step on a command word takes that one word and delivers exactly one response after
those before it. -/
def Obligations.EveryCommandWordGetsOneResponse : Prop :=
  ∀ (s : State) (w : CmdWord) (es : List HostEvent), s.inbox = .command w :: es →
    ∃ t r, step s = .next t ∧ t.inbox = es ∧ t.outbox = s.outbox ++ [r]

/-- Rules R57, R192 and R203: the unit never stops, and serves everything the host issues: after as many
steps as the inbox holds events the inbox is empty, and one response has been delivered for every command
word, after the responses there were. -/
def Obligations.RunServesEverythingTheHostIssues : Prop :=
  ∀ s : State, ∃ t rs, Sys2Proof.core.run s.inbox.length s = .next t ∧ t.inbox = [] ∧
    t.outbox = s.outbox ++ rs ∧
    rs.length = (s.inbox.filter (fun e => match e with | .command _ => true | _ => false)).length

/-- Rule R20, column "visible to commands", and rules R24 to R30: over a command word, `COEF` changes only
by `LDC`, `PX` and `PY` only by `LDP`, `CDEG` only by `SETDEG`, `PLAST` only by `SETPN`, and `STATUS` only
by `CLRS` or a fault. -/
def Obligations.OnlyTheNamedCommandsWriteEachPieceOfState : Prop :=
  ∀ (s t : State) (w : CmdWord) (es : List HostEvent), s.inbox = .command w :: es → step s = .next t →
    (t.coef ≠ s.coef → ∃ i v, decode w = .ok (.ldc i v)) ∧
    (t.px ≠ s.px ∨ t.py ≠ s.py → ∃ i x y, decode w = .ok (.ldp i x y)) ∧
    (t.cdeg ≠ s.cdeg → ∃ d, decode w = .ok (.setdeg d)) ∧
    (t.plast ≠ s.plast → ∃ n, decode w = .ok (.setpn n)) ∧
    (t.status ≠ s.status → decode w = .ok .clrs ∨ ∃ c, t.outbox = s.outbox ++ [.fault c])

/-- Rule R56: a read returns the latest earlier write. What an entry of a space holds survives any sequence
of commands none of which writes that entry. -/
def Obligations.StoredEntrySurvivesCommandsThatDoNotWriteIt : Prop :=
  ∀ (cs : List Instr) (s t : State) (sp : Space) (j b : Byte), stored sp s.toGfau j = some b →
    s.inbox = cs.map (fun i => .command (encode i)) →
    (sp = .coef → ∀ v, .ldc j v ∉ cs) → (sp ≠ .coef → ∀ x y, .ldp j x y ∉ cs) →
    Sys2Proof.core.run cs.length s = .next t → stored sp t.toGfau j = some b

/-- The machine right after reset meets the invariant: no point is half written and the reserved bits of
`STATUS` are 0 (rules R25, R30, R35); that the memories are lists with strictly rising indices is the model's
own form of a memory, a choice (assumption 5). -/
def Obligations.InvariantHoldsAtReset : Prop := Inv State.reset

/-- Every step keeps the invariant, from every state that meets it: every point is written whole, the reserved
bits of `STATUS` stay 0 (rules R25, R30, R54), and the memories keep their canonical form, which is the
model's own form of a memory, a choice (assumption 5). -/
def Obligations.EveryStepKeepsTheInvariant : Prop :=
  ∀ s t : State, Inv s → step s = .next t → Inv t

/-! ## The unit by itself -/

/-- Rules R20 and R36: GFAU's state is the six pieces of `Gfau`, the command word is an input of its step and
the response an output. On a word the host offers, a step of the machine is exactly that step of the unit:
it sees nothing of the port but the word, and changes nothing of the port but to take the word and deliver
the response. -/
def Obligations.StepDeliversTheUnitsOwnStep : Prop :=
  ∀ (s : State) (w : CmdWord) (es : List HostEvent), s.inbox = .command w :: es →
    step s = .next
      { toGfau := (gfauStep w s.toGfau s.draws).unit
        inbox := es
        outbox := s.outbox ++ [(gfauStep w s.toGfau s.draws).response]
        draws := (gfauStep w s.toGfau s.draws).draws }

/-- Rules R36, R56 and R203: running the words of a program on the machine, whatever the host does after them,
is running them on the unit alone: the unit's final state and the sequence of responses are those of
`runWords`, which knows of no port. -/
def Obligations.ProgramRunIsTheUnitsOwnRun : Prop :=
  ∀ (ws : List CmdWord) (es : List HostEvent) (s : State), s.inbox = ws.map HostEvent.command ++ es →
    Sys2Proof.core.run ws.length s = .next
      { toGfau := (runWords ws s.toGfau s.draws).1
        inbox := es
        outbox := s.outbox ++ (runWords ws s.toGfau s.draws).2.1
        draws := (runWords ws s.toGfau s.draws).2.2 }
end

