-- ==== Sys2Proof/Laws/State.lean ====
section
/-! SUPPORT. One lemma per field per update of the state, so that no proof unfolds a record update. -/

namespace Sys2Proof.Machine

/-! ## Updates of the unit's state -/

@[simp] theorem setFlag_coef (c : FaultCode) (u : Gfau) : (setFlag c u).coef = u.coef := rfl
@[simp] theorem setFlag_px (c : FaultCode) (u : Gfau) : (setFlag c u).px = u.px := rfl
@[simp] theorem setFlag_py (c : FaultCode) (u : Gfau) : (setFlag c u).py = u.py := rfl
@[simp] theorem setFlag_cdeg (c : FaultCode) (u : Gfau) : (setFlag c u).cdeg = u.cdeg := rfl
@[simp] theorem setFlag_plast (c : FaultCode) (u : Gfau) : (setFlag c u).plast = u.plast := rfl
@[simp] theorem setFlag_status (c : FaultCode) (u : Gfau) : (setFlag c u).status = u.status ||| flagOf c := rfl

@[simp] theorem clearStatus_coef (u : Gfau) : (clearStatus u).coef = u.coef := rfl
@[simp] theorem clearStatus_px (u : Gfau) : (clearStatus u).px = u.px := rfl
@[simp] theorem clearStatus_py (u : Gfau) : (clearStatus u).py = u.py := rfl
@[simp] theorem clearStatus_cdeg (u : Gfau) : (clearStatus u).cdeg = u.cdeg := rfl
@[simp] theorem clearStatus_plast (u : Gfau) : (clearStatus u).plast = u.plast := rfl
@[simp] theorem clearStatus_status (u : Gfau) : (clearStatus u).status = 0x00#8 := rfl

@[simp] theorem writeEntry_coef_coef (i v : Byte) (u : Gfau) : (writeEntry .coef i v u).coef = memStore u.coef i.toNat v := rfl
@[simp] theorem writeEntry_coef_px (i v : Byte) (u : Gfau) : (writeEntry .coef i v u).px = u.px := rfl
@[simp] theorem writeEntry_coef_py (i v : Byte) (u : Gfau) : (writeEntry .coef i v u).py = u.py := rfl
@[simp] theorem writeEntry_coef_cdeg (i v : Byte) (u : Gfau) : (writeEntry .coef i v u).cdeg = u.cdeg := rfl
@[simp] theorem writeEntry_coef_plast (i v : Byte) (u : Gfau) : (writeEntry .coef i v u).plast = u.plast := rfl
@[simp] theorem writeEntry_coef_status (i v : Byte) (u : Gfau) : (writeEntry .coef i v u).status = u.status := rfl

@[simp] theorem writeEntry_px_coef (i v : Byte) (u : Gfau) : (writeEntry .px i v u).coef = u.coef := rfl
@[simp] theorem writeEntry_px_px (i v : Byte) (u : Gfau) : (writeEntry .px i v u).px = memStore u.px i.toNat v := rfl
@[simp] theorem writeEntry_px_py (i v : Byte) (u : Gfau) : (writeEntry .px i v u).py = u.py := rfl
@[simp] theorem writeEntry_px_cdeg (i v : Byte) (u : Gfau) : (writeEntry .px i v u).cdeg = u.cdeg := rfl
@[simp] theorem writeEntry_px_plast (i v : Byte) (u : Gfau) : (writeEntry .px i v u).plast = u.plast := rfl
@[simp] theorem writeEntry_px_status (i v : Byte) (u : Gfau) : (writeEntry .px i v u).status = u.status := rfl

@[simp] theorem writeEntry_py_coef (i v : Byte) (u : Gfau) : (writeEntry .py i v u).coef = u.coef := rfl
@[simp] theorem writeEntry_py_px (i v : Byte) (u : Gfau) : (writeEntry .py i v u).px = u.px := rfl
@[simp] theorem writeEntry_py_py (i v : Byte) (u : Gfau) : (writeEntry .py i v u).py = memStore u.py i.toNat v := rfl
@[simp] theorem writeEntry_py_cdeg (i v : Byte) (u : Gfau) : (writeEntry .py i v u).cdeg = u.cdeg := rfl
@[simp] theorem writeEntry_py_plast (i v : Byte) (u : Gfau) : (writeEntry .py i v u).plast = u.plast := rfl
@[simp] theorem writeEntry_py_status (i v : Byte) (u : Gfau) : (writeEntry .py i v u).status = u.status := rfl

@[simp] theorem memOf_coef (u : Gfau) : memOf .coef u = u.coef := rfl
@[simp] theorem memOf_px (u : Gfau) : memOf .px u = u.px := rfl
@[simp] theorem memOf_py (u : Gfau) : memOf .py u = u.py := rfl

/-! ## The unit right after reset -/

@[simp] theorem gfauReset_coef : Gfau.reset.coef = [] := rfl
@[simp] theorem gfauReset_px : Gfau.reset.px = [] := rfl
@[simp] theorem gfauReset_py : Gfau.reset.py = [] := rfl
@[simp] theorem gfauReset_cdeg : Gfau.reset.cdeg = 0x00#8 := rfl
@[simp] theorem gfauReset_plast : Gfau.reset.plast = 0x00#8 := rfl
@[simp] theorem gfauReset_status : Gfau.reset.status = 0x00#8 := rfl

/-! ## Replies -/

@[simp] theorem replyOk_unit (v : Byte) (u : Gfau) (k : Nat) : (replyOk v u k).unit = u := rfl
@[simp] theorem replyOk_response (v : Byte) (u : Gfau) (k : Nat) : (replyOk v u k).response = .ok v := rfl
@[simp] theorem replyOk_draws (v : Byte) (u : Gfau) (k : Nat) : (replyOk v u k).draws = k := rfl

@[simp] theorem replyDone_unit (u : Gfau) (k : Nat) : (replyDone u k).unit = u := rfl
@[simp] theorem replyDone_response (u : Gfau) (k : Nat) : (replyDone u k).response = .ok 0x00#8 := rfl
@[simp] theorem replyDone_draws (u : Gfau) (k : Nat) : (replyDone u k).draws = k := rfl

@[simp] theorem raiseFault_unit (c : FaultCode) (u : Gfau) (k : Nat) : (raiseFault c u k).unit = setFlag c u := rfl
@[simp] theorem raiseFault_response (c : FaultCode) (u : Gfau) (k : Nat) : (raiseFault c u k).response = .fault c := rfl
@[simp] theorem raiseFault_draws (c : FaultCode) (u : Gfau) (k : Nat) : (raiseFault c u k).draws = k := rfl

@[simp] theorem readReply_unit (sp : Space) (i : Byte) (u : Gfau) (k : Nat) : (readReply sp i u k).unit = u := rfl
@[simp] theorem readReply_response (sp : Space) (i : Byte) (u : Gfau) (k : Nat) : (readReply sp i u k).response = .ok (memRead (memOf sp u) i.toNat k).1 := rfl
@[simp] theorem readReply_draws (sp : Space) (i : Byte) (u : Gfau) (k : Nat) : (readReply sp i u k).draws = (memRead (memOf sp u) i.toNat k).2 := rfl

@[simp] theorem replyOrDiv0_some (v : Byte) (u : Gfau) (k : Nat) : replyOrDiv0 (some v) u k = replyOk v u k := rfl
@[simp] theorem replyOrDiv0_none (u : Gfau) (k : Nat) : replyOrDiv0 none u k = raiseFault .div0 u k := rfl

/-! ## Updates of the machine's state -/

@[simp] theorem deliver_toGfau (r : Reply) (s : State) : (deliver r s).toGfau = r.unit := rfl
@[simp] theorem deliver_inbox (r : Reply) (s : State) : (deliver r s).inbox = s.inbox := rfl
@[simp] theorem deliver_outbox (r : Reply) (s : State) : (deliver r s).outbox = s.outbox ++ [r.response] := rfl
@[simp] theorem deliver_draws (r : Reply) (s : State) : (deliver r s).draws = r.draws := rfl

@[simp] theorem resetUnit_toGfau (s : State) : (resetUnit s).toGfau = Gfau.reset := rfl
@[simp] theorem resetUnit_inbox (s : State) : (resetUnit s).inbox = s.inbox := rfl
@[simp] theorem resetUnit_outbox (s : State) : (resetUnit s).outbox = s.outbox := rfl
@[simp] theorem resetUnit_draws (s : State) : (resetUnit s).draws = s.draws := rfl

@[simp] theorem offer_toGfau (w : CmdWord) (s : State) : (offer w s).toGfau = s.toGfau := rfl
@[simp] theorem offer_inbox (w : CmdWord) (s : State) : (offer w s).inbox = .command w :: s.inbox := rfl
@[simp] theorem offer_outbox (w : CmdWord) (s : State) : (offer w s).outbox = s.outbox := rfl
@[simp] theorem offer_draws (w : CmdWord) (s : State) : (offer w s).draws = s.draws := rfl

end Sys2Proof.Machine
end

