-- ==== Sys2Proof/Laws/Memory.lean ====
section
/-! SUPPORT. What one memory's load, store and read do, and that a store keeps the canonical form. -/

namespace Sys2Proof.Machine

@[simp] theorem memLoad_nil (i : Nat) : memLoad [] i = none := rfl

/-- Everything a store does to loads: the stored entry holds the stored byte, every other entry what it held. -/
theorem memLoad_memStore (m : Memory) (i j : Nat) (v : Byte) :
    memLoad (memStore m i v) j = if j = i then some v else memLoad m j := by
  induction m with
  | nil => simp [memStore, memLoad]
  | cons c m ih =>
    obtain ⟨k, w⟩ := c
    simp only [memStore]
    split
    · simp [memLoad]
    · split
      · subst_vars
        simp only [memLoad]
        split <;> simp_all
      · simp only [memLoad, ih]
        split <;> split <;> simp_all

/-- A store lists no index but the stored one and those listed before. -/
theorem mem_memStore {m : Memory} {i : Nat} {v : Byte} {c : Host.Cell} (h : c ∈ memStore m i v) :
    c.1 = i ∨ c ∈ m := by
  induction m with
  | nil => simp_all [memStore]
  | cons d m ih =>
    obtain ⟨k, w⟩ := d
    simp only [memStore] at h
    split at h
    · simp only [List.mem_cons] at h ⊢
      rcases h with rfl | h
      · exact .inl rfl
      · exact .inr h
    · split at h
      · simp only [List.mem_cons] at h ⊢
        rcases h with rfl | h
        · exact .inl rfl
        · exact .inr (.inr h)
      · simp only [List.mem_cons] at h ⊢
        rcases h with rfl | h
        · exact .inr (.inl rfl)
        · exact (ih h).imp id .inr

/-- A store keeps the canonical form. -/
theorem memStore_wf {m : Memory} (hm : m.wf) {i : Nat} (hi : i < 256) (v : Byte) : (memStore m i v).wf := by
  refine ⟨?_, fun c hc => ?_⟩
  · obtain ⟨hp, -⟩ := hm
    induction m with
    | nil => simp [memStore]
    | cons d m ih =>
      obtain ⟨k, w⟩ := d
      rw [List.pairwise_cons] at hp
      simp only [memStore]
      split
      · rename_i hik
        refine List.pairwise_cons.2 ⟨fun c hc => ?_, List.pairwise_cons.2 hp⟩
        rcases List.mem_cons.1 hc with rfl | hc
        · exact hik
        · exact Nat.lt_trans hik (hp.1 c hc)
      · split
        · subst_vars
          exact List.pairwise_cons.2 hp
        · refine List.pairwise_cons.2 ⟨fun c hc => ?_, ih hp.2⟩
          rcases mem_memStore hc with h | h
          · simp only; omega
          · exact hp.1 c h
  · rcases mem_memStore hc with h | h
    · omega
    · exact hm.2 c h

/-- A read of a written entry yields the written byte and draws nothing. -/
theorem memRead_written {m : Memory} {i : Nat} {v : Byte} (h : memLoad m i = some v) (k : Nat) :
    memRead m i k = (v, k) := by
  simp [memRead, h]

/-- A read of an unwritten entry yields the next free byte. -/
theorem memRead_unwritten {m : Memory} {i : Nat} (h : memLoad m i = none) (k : Nat) :
    memRead m i k = (Config.freeByte k, k + 1) := by
  simp [memRead, h]

/-- What a write of one entry of a space does to every entry of every space: rule R26's separation included. -/
theorem stored_writeEntry (sp sp' : Space) (i j v : Byte) (u : Gfau) :
    stored sp' (writeEntry sp i v u) j = if sp' = sp ∧ j = i then some v else stored sp' u j := by
  cases sp <;> cases sp' <;>
    simp [stored, memOf, writeEntry, memLoad_memStore, BitVec.toNat_inj]

/-- The memory of every space keeps its canonical form when an entry of any space is written. -/
theorem writeEntry_wf (sp sp' : Space) (i v : Byte) (u : Gfau) (h : (memOf sp' u).wf) :
    (memOf sp' (writeEntry sp i v u)).wf := by
  cases sp <;> cases sp' <;> first | exact h | exact memStore_wf h i.isLt v

/-- The memories of the machine right after reset are in canonical form. -/
theorem reset_wf : State.reset.coef.wf ∧ State.reset.px.wf ∧ State.reset.py.wf := by decide

end Sys2Proof.Machine
end

