-- ==== Sys2Proof/Laws/Ops.lean ====
section
/-! SUPPORT. One lemma per shared operation of the kernels, saying once what it does where every entry it
reads is written, and what it can do at all. -/

namespace Sys2Proof.Machine

/-- Addition of logarithms is addition modulo 255 (rule R112). -/
theorem logAdd_eq_add (la lb : Fin 255) : logAdd la lb = la + lb := by
  apply Fin.ext
  simp only [logAdd, Fin.val_add]
  split <;> simp only <;> omega

/-- Subtraction of logarithms is subtraction modulo 255 (rule R112). -/
theorem logSub_eq_sub (la lb : Fin 255) : logSub la lb = la - lb := by
  apply Fin.ext
  simp only [logSub, Fin.val_sub]
  split <;> simp only <;> omega

/-- The two ends a dividing command has: its result, or the fault `DIV0`. -/
theorem replyOrDiv0_cases (r : Option Byte) (u : Gfau) (k : Nat) :
    (∃ v, r = some v ∧ replyOrDiv0 r u k = replyOk v u k) ∨
      (r = none ∧ replyOrDiv0 r u k = raiseFault .div0 u k) := by
  cases r with
  | none => exact .inr ⟨rfl, rfl⟩
  | some v => exact .inl ⟨v, rfl, rfl⟩

/-- Horner's loop over written coefficients draws nothing and takes them from the highest index down. -/
theorem hornerLoop_written {m : Memory} {c : Nat → Byte} (x : Byte) :
    ∀ (n : Nat) (acc : Byte) (k : Nat), (∀ i < n, memLoad m i = some (c i)) →
      hornerLoop m x n acc k = ((List.range n).foldr (fun i a => gadd (gmul a x) (c i)) acc, k) := by
  intro n
  induction n with
  | zero => intro acc k _; rfl
  | succ n ih =>
    intro acc k h
    simp only [hornerLoop, memRead_written (h n (Nat.lt_succ_self n))]
    rw [ih _ _ fun i hi => h i (Nat.lt_succ_of_lt hi), List.range_succ]
    simp

/-- The inner loop of interpolation over written points: it draws nothing, raises `DIV0` exactly when a
point number other than `i` still to come has the x-coordinate of `i`, and otherwise multiplies the
quotients in. -/
theorem basisLoop_written {px : Memory} {x : Nat → Byte} (v : Byte) (i : Nat)
    (hi : memLoad px i = some (x i)) :
    ∀ (js : List Nat) (l : Byte) (k : Nat), (∀ j ∈ js, memLoad px j = some (x j)) →
      basisLoop px v i js l k =
        (js.foldl (fun acc j => acc.bind fun l' =>
          if j = i then some l' else (gdiv (gsub v (x j)) (gsub (x i) (x j))).map (gmul l')) (some l), k) := by
  have stuck : ∀ (js : List Nat), js.foldl (fun acc j => acc.bind fun l' =>
      if j = i then some l' else (gdiv (gsub v (x j)) (gsub (x i) (x j))).map (gmul l')) none = none := by
    intro js
    induction js with
    | nil => rfl
    | cons j js ih => simpa using ih
  intro js
  induction js with
  | nil => intro l k _; rfl
  | cons j js ih =>
    intro l k h
    have hj := h j (List.mem_cons_self ..)
    have hrest : ∀ j' ∈ js, memLoad px j' = some (x j') := fun j' hj' => h j' (List.mem_cons_of_mem _ hj')
    simp only [basisLoop, List.foldl_cons, Option.bind_some]
    split
    · exact ih l k hrest
    · simp only [memRead_written hj, memRead_written hi]
      cases hq : gdiv (gsub v (x j)) (gsub (x i) (x j)) with
      | none => simp [stuck]
      | some q => simpa using ih (gmul l q) k hrest

end Sys2Proof.Machine
end

