-- ==== Sys2Proof/Laws/Commands.lean ====
section
/-! SUPPORT. Everything a command can do, said once: to the unit (`commandReply_effect`), and what `exec`
and the unit's step make of it. -/

namespace Sys2Proof.Machine

/-- The ways a reply to command `i` in the unit's state `u` can come out. -/
inductive CommandEffect (i : Instr) (u : Gfau) (r : Reply) : Prop where
  /-- The command ends OK: each piece of state is as it was, or the command is one that writes it. -/
  | ok (v : Byte)
      (response : r.response = .ok v)
      (coef : r.unit.coef = u.coef ∨ ∃ j b, i = .ldc j b ∧ r.unit.coef = memStore u.coef j.toNat b)
      (points : (r.unit.px = u.px ∧ r.unit.py = u.py) ∨
        ∃ j x y, i = .ldp j x y ∧ r.unit.px = memStore u.px j.toNat x ∧ r.unit.py = memStore u.py j.toNat y)
      (cdeg : r.unit.cdeg = u.cdeg ∨ ∃ d, i = .setdeg d ∧ r.unit.cdeg = d)
      (plast : r.unit.plast = u.plast ∨ ∃ n, i = .setpn n ∧ r.unit.plast = n)
      (status : r.unit.status = u.status ∧ i ≠ .clrs ∨ i = .clrs ∧ r.unit.status = 0x00#8)
  /-- A dividing command ends with `DIV0`: only the flag is set. -/
  | div0
      (divides : (∃ a b, i = .gdiv a b) ∨ (∃ a, i = .ginv a) ∨ ∃ v, i = .interp v)
      (response : r.response = .fault .div0)
      (unit : r.unit = setFlag .div0 u)

/-- The end of a dividing command: OK with no state written, or `DIV0`. -/
theorem replyOrDiv0_effect {i : Instr} (h : (∃ a b, i = .gdiv a b) ∨ (∃ a, i = .ginv a) ∨ ∃ v, i = .interp v)
    (q : Option Byte) (u : Gfau) (k : Nat) : CommandEffect i u (replyOrDiv0 q u k) := by
  have hi : i ≠ .clrs := by rintro rfl; simp at h
  rcases replyOrDiv0_cases q u k with ⟨v, -, hr⟩ | ⟨-, hr⟩
  · rw [hr]
    exact .ok v rfl (.inl rfl) (.inl ⟨rfl, rfl⟩) (.inl rfl) (.inl rfl) (.inl ⟨rfl, hi⟩)
  · rw [hr]
    exact .div0 h rfl rfl

/-- EVERYTHING A COMMAND CAN DO TO THE UNIT. -/
theorem commandReply_effect (i : Instr) (u : Gfau) (k : Nat) : CommandEffect i u (commandReply i u k) := by
  cases i with
  | gdiv a b => exact replyOrDiv0_effect (.inl ⟨a, b, rfl⟩) ..
  | ginv a => exact replyOrDiv0_effect (.inr (.inl ⟨a, rfl⟩)) ..
  | interp v => exact replyOrDiv0_effect (.inr (.inr ⟨v, rfl⟩)) ..
  | ldc j b =>
    exact .ok _ rfl (.inr ⟨j, b, rfl, rfl⟩) (.inl ⟨rfl, rfl⟩) (.inl rfl) (.inl rfl) (.inl ⟨rfl, by simp⟩)
  | ldp j x y =>
    exact .ok _ rfl (.inl rfl) (.inr ⟨j, x, y, rfl, rfl, rfl⟩) (.inl rfl) (.inl rfl) (.inl ⟨rfl, by simp⟩)
  | setdeg d => exact .ok _ rfl (.inl rfl) (.inl ⟨rfl, rfl⟩) (.inr ⟨d, rfl, rfl⟩) (.inl rfl) (.inl ⟨rfl, by simp⟩)
  | setpn n => exact .ok _ rfl (.inl rfl) (.inl ⟨rfl, rfl⟩) (.inl rfl) (.inr ⟨n, rfl, rfl⟩) (.inl ⟨rfl, by simp⟩)
  | clrs => exact .ok _ rfl (.inl rfl) (.inl ⟨rfl, rfl⟩) (.inl rfl) (.inl rfl) (.inr ⟨rfl, rfl⟩)
  | _ => exact .ok _ rfl (.inl rfl) (.inl ⟨rfl, rfl⟩) (.inl rfl) (.inl rfl) (.inl ⟨rfl, by simp⟩)

/-- A command of the machine answers exactly one next state. -/
@[simp] theorem answer_eq_next_iff (f : Gfau → Nat → Reply) (s t : State) :
    answer f s = .next t ↔ deliver (f s.toGfau s.draws) s = t := by
  simp [answer]

/-- EVERYTHING A COMMAND DOES ON THE MACHINE: the unit's reply to it is delivered. -/
theorem exec_eq_answer (i : Instr) (s : State) : exec i s = answer (commandReply i) s := by
  cases i <;> rfl

/-- The unit's step on a word that decodes. -/
theorem gfauStep_of_ok {w : CmdWord} {i : Instr} (h : decode w = .ok i) (u : Gfau) (k : Nat) :
    gfauStep w u k = commandReply i u k := by
  simp only [gfauStep, h]

/-- The unit's step on a word that does not decode. -/
theorem gfauStep_of_error {w : CmdWord} {e : Illegal} (h : decode w = .error e) (u : Gfau) (k : Nat) :
    gfauStep w u k = raiseFault .illegal u k := by
  simp only [gfauStep, h]

end Sys2Proof.Machine
end

