-- ==== Sys2Proof/Laws/Fields.lean ====
section
/-! SUPPORT. The four fields of a command word (rule R70): each is what the word was built from, and a word
is built from its fields. -/

namespace Sys2Proof

/-- Each bit of a built word is a bit of one of its fields. -/
theorem cmdWord_getLsbD (op a b c : Byte) (i : Nat) :
    (cmdWord op a b c).getLsbD i =
      if i < 8 then c.getLsbD i else if i < 16 then b.getLsbD (i - 8)
      else if i < 24 then a.getLsbD (i - 16) else op.getLsbD (i - 24) := by
  have h : (cmdWord op a b c).getLsbD i = (op ++ a ++ b ++ c : BitVec (8 + 8 + 8 + 8)).getLsbD i := rfl
  rw [h]
  simp only [BitVec.getLsbD_append, Nat.sub_sub]
  split
  · rfl
  · have e1 : (i - 8 < 8) ↔ i < 16 := by omega
    have e2 : (i - (8 + 8) < 8) ↔ i < 24 := by omega
    simp only [e1, e2]

@[simp] theorem cmdOp_cmdWord (op a b c : Byte) : cmdOp (cmdWord op a b c) = op := by
  apply BitVec.eq_of_getLsbD_eq
  intro i hi
  simp only [cmdOp, BitVec.getLsbD_extractLsb', cmdWord_getLsbD]
  rw [if_neg (by omega), if_neg (by omega), if_neg (by omega)]
  simp [hi]

@[simp] theorem cmdA_cmdWord (op a b c : Byte) : cmdA (cmdWord op a b c) = a := by
  apply BitVec.eq_of_getLsbD_eq
  intro i hi
  simp only [cmdA, BitVec.getLsbD_extractLsb', cmdWord_getLsbD]
  rw [if_neg (by omega), if_neg (by omega), if_pos (by omega)]
  simp [hi]

@[simp] theorem cmdB_cmdWord (op a b c : Byte) : cmdB (cmdWord op a b c) = b := by
  apply BitVec.eq_of_getLsbD_eq
  intro i hi
  simp only [cmdB, BitVec.getLsbD_extractLsb', cmdWord_getLsbD]
  rw [if_neg (by omega), if_pos (by omega)]
  simp [hi]

@[simp] theorem cmdC_cmdWord (op a b c : Byte) : cmdC (cmdWord op a b c) = c := by
  apply BitVec.eq_of_getLsbD_eq
  intro i hi
  simp only [cmdC, BitVec.getLsbD_extractLsb', cmdWord_getLsbD]
  rw [if_pos (by omega)]
  simp [hi]

/-- A word is its four fields put together. -/
theorem cmdWord_fields (w : CmdWord) : cmdWord (cmdOp w) (cmdA w) (cmdB w) (cmdC w) = w := by
  apply BitVec.eq_of_getLsbD_eq
  intro i hi
  simp only [cmdWord_getLsbD, cmdOp, cmdA, cmdB, cmdC, BitVec.getLsbD_extractLsb']
  split
  · simp_all
  · split
    · rw [show 8 + (i - 8) = i by omega]
      simp; omega
    · split
      · rw [show 16 + (i - 16) = i by omega]
        simp; omega
      · rw [show 24 + (i - 24) = i by omega]
        simp; omega

/-- Two words built from fields are equal exactly when their fields are. -/
theorem cmdWord_inj {op a b c op' a' b' c' : Byte} :
    cmdWord op a b c = cmdWord op' a' b' c' ↔ op = op' ∧ a = a' ∧ b = b' ∧ c = c' := by
  constructor
  · intro h
    exact ⟨by simpa using congrArg cmdOp h, by simpa using congrArg cmdA h,
      by simpa using congrArg cmdB h, by simpa using congrArg cmdC h⟩
  · rintro ⟨rfl, rfl, rfl, rfl⟩
    rfl

end Sys2Proof
end

