-- ==== Sys2Proof/Laws/PerInstr.lean ====
section
/-! SUPPORT. The per-instruction family `EncodingShape`: the encoded word of every command matches its row
of the opcode table, `(cmd & mask) == match` with `match = op * 2^24` (30_encoding.md rule R71). -/

namespace Sys2Proof.Laws.EncodingShape

/-- The encoded word matches the command's mask and opcode, and its opcode's row is in the map. -/
def Statement (i : Instr) : Prop :=
  encode i &&& i.format.mask = (opcodeOf i).setWidth 32 <<< 24 ∧ (rowOf (opcodeOf i)).isSome = true

/-- The bits of a word in format AB that the mask keeps are the opcode's. -/
theorem mask_ab (op a b : Byte) : cmdWord op a b 0x00#8 &&& Format.ab.mask = op.setWidth 32 <<< 24 := by
  apply BitVec.eq_of_getLsbD_eq
  intro i hi
  simp only [BitVec.getLsbD_and, cmdWord_getLsbD, Format.mask]
  interval_cases i <;> simp

/-- The bits of a word in format A that the mask keeps are the opcode's. -/
theorem mask_a (op a : Byte) : cmdWord op a 0x00#8 0x00#8 &&& Format.a.mask = op.setWidth 32 <<< 24 := by
  apply BitVec.eq_of_getLsbD_eq
  intro i hi
  simp only [BitVec.getLsbD_and, cmdWord_getLsbD, Format.mask]
  interval_cases i <;> simp

/-- The bits of a word in format ABC that the mask keeps are the opcode's. -/
theorem mask_abc (op a b c : Byte) : cmdWord op a b c &&& Format.abc.mask = op.setWidth 32 <<< 24 := by
  apply BitVec.eq_of_getLsbD_eq
  intro i hi
  simp only [BitVec.getLsbD_and, cmdWord_getLsbD, Format.mask]
  interval_cases i <;> simp

theorem gadd (a b : Byte) : Statement (.gadd a b) := ⟨mask_ab .., rfl⟩
theorem gsub (a b : Byte) : Statement (.gsub a b) := ⟨mask_ab .., rfl⟩
theorem gmul (a b : Byte) : Statement (.gmul a b) := ⟨mask_ab .., rfl⟩
theorem gdiv (a b : Byte) : Statement (.gdiv a b) := ⟨mask_ab .., rfl⟩
theorem ginv (a : Byte) : Statement (.ginv a) := ⟨mask_a .., rfl⟩
theorem ldc (i v : Byte) : Statement (.ldc i v) := ⟨mask_ab .., rfl⟩
theorem rdc (i : Byte) : Statement (.rdc i) := ⟨mask_a .., rfl⟩
theorem setdeg (d : Byte) : Statement (.setdeg d) := ⟨mask_a .., rfl⟩
theorem rddeg : Statement .rddeg := ⟨rfl, rfl⟩
theorem eval (x : Byte) : Statement (.eval x) := ⟨mask_a .., rfl⟩
theorem ldp (i x y : Byte) : Statement (.ldp i x y) := ⟨mask_abc .., rfl⟩
theorem rdpx (i : Byte) : Statement (.rdpx i) := ⟨mask_a .., rfl⟩
theorem rdpy (i : Byte) : Statement (.rdpy i) := ⟨mask_a .., rfl⟩
theorem setpn (n : Byte) : Statement (.setpn n) := ⟨mask_a .., rfl⟩
theorem rdpn : Statement .rdpn := ⟨rfl, rfl⟩
theorem interp (v : Byte) : Statement (.interp v) := ⟨mask_a .., rfl⟩
theorem rdst : Statement .rdst := ⟨rfl, rfl⟩
theorem clrs : Statement .clrs := ⟨rfl, rfl⟩
theorem nop : Statement .nop := ⟨rfl, rfl⟩

end Sys2Proof.Laws.EncodingShape
end

