-- ==== Sys2Proof/Laws/Run.lean ====
section
/-! SUPPORT. A step on the event the host offers next, and a run of steps taken one at a time. -/

namespace Sys2Proof.Machine

/-- A step takes the host's next event and serves it. -/
theorem step_eq_serve {s : State} {e : HostEvent} {es : List HostEvent} (h : s.inbox = e :: es) :
    step s = serve e { s with inbox := es } := by
  simp only [step, unitStep, takeEvent, h]

/-- A run of one step more, when the step answers a next state. -/
theorem run_succ_of_next {s t : State} (h : step s = .next t) (n : Nat) :
    Sys2Proof.core.run (n + 1) s = Sys2Proof.core.run n t := by
  have h' : Sys2Proof.core.step s = .next t := h
  simp only [Host.Core.run, h']

/-- The next step of a state placed by `withFetchWord` serves exactly that word. -/
theorem step_withFetchWord (s : State) (nbits w : Nat) :
    step (s.withFetchWord nbits w) = serveWord (tableWord nbits w) s :=
  rfl

end Sys2Proof.Machine
end

