-- ==== Sys2Proof/Tests/Slice0.lean ====
section
/-! SUPPORT. Tests: every constructor's decoding from a word written bit by bit (30_encoding.md rules R70,
R76), the well-formedness smoke test, one or two single-step tests per command with results from the spec's
examples and vectors (95_test_vectors.md), and for every statement with hypotheses a witness that meets them. -/

namespace Sys2Proof.Tests

open Sys2Proof.Machine

-- One theorem at a time: many small ones at once would each hold a thread's stack.
set_option Elab.async false

/-! ## Words written out bit by bit from rule R76 (opcode, a, b, c from left to right) -/

theorem test_decode_gadd : decode 0b00000001101101100101001100000000#32 = .ok (.gadd 0xb6#8 0x53#8) := by rfl
theorem test_decode_gsub : decode 0b00000010001101100101001100000000#32 = .ok (.gsub 0x36#8 0x53#8) := by rfl
theorem test_decode_gmul : decode 0b00000011101101100101001100000000#32 = .ok (.gmul 0xb6#8 0x53#8) := by rfl
theorem test_decode_gdiv : decode 0b00000100001101100101001100000000#32 = .ok (.gdiv 0x36#8 0x53#8) := by rfl
theorem test_decode_ginv : decode 0b00000101010100110000000000000000#32 = .ok (.ginv 0x53#8) := by rfl
theorem test_decode_ldc : decode 0b00010000000000100011110000000000#32 = .ok (.ldc 0x02#8 0x3c#8) := by rfl
theorem test_decode_rdc : decode 0b00010001000000100000000000000000#32 = .ok (.rdc 0x02#8) := by rfl
theorem test_decode_setdeg : decode 0b00010010111111110000000000000000#32 = .ok (.setdeg 0xff#8) := by rfl
theorem test_decode_rddeg : decode 0b00010011000000000000000000000000#32 = .ok (.rddeg) := by rfl
theorem test_decode_eval : decode 0b00010100000000100000000000000000#32 = .ok (.eval 0x02#8) := by rfl
theorem test_decode_ldp : decode 0b00100000000000010000001011101101#32 = .ok (.ldp 0x01#8 0x02#8 0xed#8) := by rfl
theorem test_decode_rdpx : decode 0b00100001000000010000000000000000#32 = .ok (.rdpx 0x01#8) := by rfl
theorem test_decode_rdpy : decode 0b00100010000000010000000000000000#32 = .ok (.rdpy 0x01#8) := by rfl
theorem test_decode_setpn : decode 0b00100011000000100000000000000000#32 = .ok (.setpn 0x02#8) := by rfl
theorem test_decode_rdpn : decode 0b00100100000000000000000000000000#32 = .ok (.rdpn) := by rfl
theorem test_decode_interp : decode 0b00100101000001010000000000000000#32 = .ok (.interp 0x05#8) := by rfl
theorem test_decode_rdst : decode 0b00110000000000000000000000000000#32 = .ok (.rdst) := by rfl
theorem test_decode_clrs : decode 0b00110001000000000000000000000000#32 = .ok (.clrs) := by rfl
theorem test_decode_nop : decode 0b00110010000000000000000000000000#32 = .ok (.nop) := by rfl

/-- Rules R77 and R78: a set bit in an unused field, a reserved opcode. -/
theorem test_decode_rejects : decode 0x05AB0100#32 = .error .unusedFieldNonzero ∧
    decode 0x30000001#32 = .error .unusedFieldNonzero ∧ decode 0x06000000#32 = .error .reservedOpcode ∧
    decode 0xFFFFFFFF#32 = .error .reservedOpcode := ⟨rfl, rfl, rfl, rfl⟩

/-- The two ends of every run of reserved opcodes, and the assigned opcodes beside them (rule R78). -/
theorem test_reserved_boundaries :
    ([0x00#8, 0x06#8, 0x0F#8, 0x15#8, 0x1F#8, 0x26#8, 0x2F#8, 0x33#8, 0xFF#8].all fun op => (rowOf op).isNone) = true ∧
    ([0x01#8, 0x05#8, 0x10#8, 0x14#8, 0x20#8, 0x25#8, 0x30#8, 0x32#8].all fun op => (rowOf op).isSome) = true := by
  decide +kernel

/-- The table's numbering is the word's, and bits above the given ones are 0. -/
theorem test_decodeTableWord : decodeTableWord 32 0x03B65300 = some (.gmul 0xb6#8 0x53#8) ∧
    decodeTableWord 32 0x00000000 = none ∧ decodeTableWord 40 0x03B65300 = none := ⟨rfl, rfl, rfl⟩

/-- The opcode map has nineteen rows with pairwise different opcodes and mnemonics (rule R76). -/
theorem test_opcodeMap_distinct : opcodeMap.length = 19 ∧ (opcodeMap.map OpRow.op).Nodup ∧
    (opcodeMap.map OpRow.mnemonic).Nodup := by decide +kernel

/-! ## Well-formedness: one ill-formed line for each check, refused (rule R80) -/

theorem test_wellFormed_unknown_mnemonic : AsmLine.wellFormed ⟨"GPOW", [1, 2]⟩ = false := by decide
theorem test_wellFormed_lower_case : AsmLine.wellFormed ⟨"gadd", [1, 2]⟩ = false := by decide
theorem test_wellFormed_missing_operand : AsmLine.wellFormed ⟨"GADD", [1]⟩ = false := by decide
theorem test_wellFormed_extra_operand : AsmLine.wellFormed ⟨"NOP", [1]⟩ = false := by decide
theorem test_wellFormed_operand_above_255 : AsmLine.wellFormed ⟨"GADD", [1, 256]⟩ = false := by decide
theorem test_wellFormed_good_line : AsmLine.wellFormed ⟨"LDP", [255, 255, 255]⟩ = true := by decide
theorem test_instr_wellFormed : Instr.wellFormed (.ldp 0xff#8 0xff#8 0xff#8) = true := rfl

/-- Rule R80: decimal operands, no operands, and a line with an operand too many. -/
theorem test_assemble : assemble "GMUL 90, 21" = some 0x035A1500#32 ∧ assemble "NOP ; nothing" = some 0x32000000#32 ∧
    assemble "RDC 1, 2" = none ∧ assemble "RDC 0x" = none := by decide +kernel

/-! ## Single steps -/

/-- The responses a step leaves. -/
def responses (o : Host.Outcome State Fault Refusal) : List Response :=
  match o with
  | .next t => t.outbox
  | .fault _ => []
  | .refused _ => []

/-- The polynomial 0x48 + 0xa7 x + 0x3c x^2 loaded (start state of V-E1 to V-E8). -/
def polyState : State :=
  { State.reset with coef := [(0, 0x48#8), (1, 0xa7#8), (2, 0x3c#8)], cdeg := 0x02#8 }

/-- The points (2, 0xed), (3, 0x76), (4, 0x0f) loaded (start state of V-I1 to V-I6). -/
def pointState : State :=
  { State.reset with
    px := [(0, 0x02#8), (1, 0x03#8), (2, 0x04#8)], py := [(0, 0xed#8), (1, 0x76#8), (2, 0x0f#8)], plast := 0x02#8 }

/-- The points (1, 0xd3), (2, 0xed), (1, 0xd3) loaded (setup of V-I7). -/
def repeatState : State :=
  { State.reset with
    px := [(0, 0x01#8), (1, 0x02#8), (2, 0x01#8)], py := [(0, 0xd3#8), (1, 0xed#8), (2, 0xd3#8)], plast := 0x02#8 }

/-- V-A1, V-A2. -/
theorem test_gadd : responses (exec (.gadd 0xb6#8 0x53#8) State.reset) = [.ok 0xe5#8] ∧
    responses (exec (.gadd 0xff#8 0xff#8) State.reset) = [.ok 0x00#8] := by decide +kernel

/-- V-A6, V-A7. -/
theorem test_gsub : responses (exec (.gsub 0x53#8 0xb6#8) State.reset) = [.ok 0xe5#8] ∧
    responses (exec (.gsub 0x00#8 0x53#8) State.reset) = [.ok 0x53#8] := by decide +kernel

/-- V-S1, V-S2, V-S3: the source's reference products. -/
theorem test_gmul : responses (exec (.gmul 0xb6#8 0x53#8) State.reset) = [.ok 0x36#8] ∧
    responses (exec (.gmul 0x5a#8 0x15#8) State.reset) = [.ok 0xfe#8] ∧
    responses (exec (.gmul 0x07#8 0x0b#8) State.reset) = [.ok 0x31#8] := by decide +kernel

/-- V-M8, V-M9: a log sum of exactly 255, and the largest. -/
theorem test_gmul_log_sum_wraps : responses (exec (.gmul 0x03#8 0xf6#8) State.reset) = [.ok 0x01#8] ∧
    responses (exec (.gmul 0xf6#8 0xf6#8) State.reset) = [.ok 0x52#8] := by decide +kernel

/-- V-D3, V-D4: negative log differences. -/
theorem test_gdiv : responses (exec (.gdiv 0xfe#8 0x15#8) State.reset) = [.ok 0x5a#8] ∧
    responses (exec (.gdiv 0x31#8 0x07#8) State.reset) = [.ok 0x0b#8] := by decide +kernel

/-- V-D13. -/
theorem test_gdiv_zero_by_zero_faults : (match exec (.gdiv 0x00#8 0x00#8) State.reset with | .next t => some t | _ => none) =
    some { State.reset with status := 0x01#8, outbox := [.fault .div0] } := by decide +kernel

/-- V-N3, V-N4: the last table entry and its inverse. -/
theorem test_ginv : responses (exec (.ginv 0x03#8) State.reset) = [.ok 0xf6#8] ∧
    responses (exec (.ginv 0xf6#8) State.reset) = [.ok 0x03#8] := by decide +kernel

/-- V-N8. -/
theorem test_ginv_zero_faults : responses (exec (.ginv 0x00#8) State.reset) = [.fault .div0] := by decide +kernel

/-- Rule R120: writing the same entry twice keeps the second value. -/
theorem test_ldc_overwrites : (match exec (.ldc 0x01#8 0x00#8) polyState with | .next t => t.coef | _ => []) =
    [(0, 0x48#8), (1, 0x00#8), (2, 0x3c#8)] := by decide +kernel

/-- Rule R51: index 255 is in range. -/
theorem test_ldc_last_entry : (match exec (.ldc 0xff#8 0x07#8) polyState with | .next t => stored .coef t.toGfau 0xff#8 | _ => none) = some 0x07#8 := by decide +kernel

/-- V-E7. -/
theorem test_rdc : responses (exec (.rdc 0x01#8) polyState) = [.ok 0xa7#8] := by decide +kernel

/-- Rules R35 and R194: a read of an unwritten entry completes, with a free byte. -/
theorem test_rdc_unwritten : responses (exec (.rdc 0x05#8) polyState) = [.ok (Config.freeByte 0)] := rfl

/-- Rule R122. -/
theorem test_setdeg : (match exec (.setdeg 0xff#8) polyState with | .next t => t.cdeg | _ => 0x00#8) = 0xff#8 := by decide +kernel

/-- V-E8. -/
theorem test_rddeg : responses (exec .rddeg polyState) = [.ok 0x02#8] := by decide +kernel

/-- V-E2, V-E5. -/
theorem test_eval : responses (exec (.eval 0x02#8) polyState) = [.ok 0xed#8] ∧
    responses (exec (.eval 0x05#8) polyState) = [.ok 0x94#8] := by decide +kernel

/-- V-E9. -/
theorem test_eval_ignores_entries_above_cdeg : responses (exec (.eval 0x02#8) { polyState with cdeg := 0x01#8 }) = [.ok 0x1d#8] := by decide +kernel

/-- Rule R140. -/
theorem test_ldp : (match exec (.ldp 0x01#8 0x02#8 0xed#8) pointState with | .next t => (stored .px t.toGfau 0x01#8, stored .py t.toGfau 0x01#8) | _ => (none, none)) =
    (some 0x02#8, some 0xed#8) := by decide +kernel

/-- V-I5. -/
theorem test_rdpx : responses (exec (.rdpx 0x01#8) pointState) = [.ok 0x03#8] := by decide +kernel

/-- V-I5. -/
theorem test_rdpy : responses (exec (.rdpy 0x01#8) pointState) = [.ok 0x76#8] := by decide +kernel

/-- Rule R143. -/
theorem test_setpn : (match exec (.setpn 0x01#8) pointState with | .next t => t.plast | _ => 0x00#8) = 0x01#8 := by decide +kernel

/-- V-I5. -/
theorem test_rdpn : responses (exec .rdpn pointState) = [.ok 0x02#8] := by decide +kernel

/-- V-I1, V-I3. -/
theorem test_interp : responses (exec (.interp 0x00#8) pointState) = [.ok 0x48#8] ∧
    responses (exec (.interp 0x05#8) pointState) = [.ok 0x94#8] := by decide +kernel

/-- V-I7: identical y is no rescue (90_conflicts.md C1). -/
theorem test_interp_repeated_x_faults : responses (exec (.interp 0x00#8) repeatState) = [.fault .div0] := by decide +kernel

/-- V-X7: reading does not clear. -/
theorem test_rdst : (match exec .rdst { State.reset with status := 0x03#8 } with | .next t => some (t.status, t.outbox) | _ => none) =
    some (0x03#8, [.ok 0x03#8]) := by decide +kernel

/-- V-X8. -/
theorem test_clrs : (match exec .clrs { State.reset with status := 0x03#8 } with | .next t => some (t.status, t.outbox) | _ => none) =
    some (0x00#8, [.ok 0x00#8]) := by decide +kernel

/-- V-X2. -/
theorem test_nop : (match exec .nop polyState with | .next t => some t | _ => none) = some { polyState with outbox := [.ok 0x00#8] } := by decide +kernel

/-- V-D14. -/
theorem test_illegal_word_sets_only_IL : (match step (State.reset.withFetchWord 32 0x04360001) with | .next t => some t | _ => none) =
    some { State.reset with status := 0x02#8, outbox := [.fault .illegal] } := by decide +kernel

/-- V-S1 on the unit alone: a word in, a response and a state out (rule R36). -/
theorem test_gfauStep : gfauStep 0x03B65300#32 Gfau.reset 0 =
    { unit := Gfau.reset, response := .ok 0x36#8, draws := 0 } := by decide +kernel

/-- P1 line 3. -/
theorem test_first_word_after_reset_runs : responses (step (State.reset.withFetchWord 32 0x03B65300)) = [.ok 0x36#8] := by decide +kernel

/-! ## Witnesses: a state and operands that meet the hypotheses of each statement that has some -/

/-- A state in which the host offers these events. -/
def offering (es : List HostEvent) (s : State) : State := { s with inbox := es }

/-- What `polyState` holds in `COEF`. -/
def polyCoef (i : Nat) : Byte := [0x48#8, 0xa7#8, 0x3c#8].getD i 0x00#8

/-- What `pointState` holds in `PX`. -/
def pointX (i : Nat) : Byte := [0x02#8, 0x03#8, 0x04#8].getD i 0x00#8

/-- What `pointState` holds in `PY`. -/
def pointY (i : Nat) : Byte := [0xed#8, 0x76#8, 0x0f#8].getD i 0x00#8

/-- The polynomial and three of its values loaded together. -/
def bothState : State := { pointState with coef := polyState.coef, cdeg := polyState.cdeg }

/-- One point and a constant polynomial in use. -/
def singleState : State := { bothState with cdeg := 0x00#8, plast := 0x00#8 }

/-- The points of `pointState`, the first two exchanged. -/
def swapState : State :=
  { pointState with
    px := [(0, 0x03#8), (1, 0x02#8), (2, 0x04#8)], py := [(0, 0x76#8), (1, 0xed#8), (2, 0x0f#8)] }

/-- The exchange of point numbers 0 and 1. -/
def swap01 (i : Nat) : Nat := if i = 0 then 1 else if i = 1 then 0 else i

theorem witness_LegalWordIsTheEncodingOfItsCommand :
    decode 0x20FFFFFF#32 = .ok (.ldp 0xff#8 0xff#8 0xff#8) :=
  rfl

theorem witness_LegalWordsAreThoseThatMatchAMask :
    decode 0x04365300#32 = .ok (.gdiv 0x36#8 0x53#8) ∧
    0x04365300#32 &&& (Instr.gdiv 0x01#8 0x02#8).format.mask = (opcodeOf (.gdiv 0x01#8 0x02#8)).setWidth 32 <<< 24 :=
  ⟨rfl, rfl⟩

theorem witness_NonzeroUnusedFieldIsRejected :
    cmdOp 0x05AB0100#32 = opcodeOf (.ginv 0xab#8) ∧
    0x05AB0100#32 &&& (Instr.ginv 0xab#8).format.mask &&& 0x00FFFFFF#32 ≠ 0#32 :=
  by decide +kernel

/-- Every non-zero byte has a logarithm, and `EXP` takes it back. -/
theorem test_logTable_expTable : ∀ a : Byte, a = 0x00#8 ∨ (logTable a).map expTable = some a := by decide +kernel

theorem witness_GeneratorTables :
    expTable 0 = 0x01#8 ∧ (∀ k : Fin 255, expTable (k + 1) = gmulRef (expTable k) gen) ∧
    (∀ a : Byte, a ≠ 0x00#8 → ∃ k, expTable k = a) ∧ (∀ k : Fin 255, logTable (expTable k) = some k) ∧
    logTable 0x00#8 = none := by
  refine ⟨rfl, by decide +kernel, fun a ha => ?_, by decide +kernel, rfl⟩
  obtain ⟨k, -, hk⟩ := Option.map_eq_some_iff.1 ((test_logTable_expTable a).resolve_left ha)
  exact ⟨k, hk⟩

theorem witness_ReadCommands_written :
    stored .coef bothState.toGfau 0x02#8 = some 0x3c#8 ∧ stored .px bothState.toGfau 0x02#8 = some 0x04#8 ∧
    stored .py bothState.toGfau 0x02#8 = some 0x0f#8 :=
  by decide +kernel

theorem witness_ReadCommands_unwritten :
    stored .coef bothState.toGfau 0xff#8 = none ∧ stored .px bothState.toGfau 0xff#8 = none ∧
    stored .py bothState.toGfau 0xff#8 = none :=
  by decide +kernel

theorem witness_CoefHolds :
    CoefHolds polyState polyCoef :=
  by decide +kernel

theorem witness_CoefHolds_degree_zero :
    CoefHolds singleState polyCoef ∧ singleState.cdeg = 0x00#8 :=
  by decide +kernel

theorem witness_PointsHold_distinct :
    PointsHold pointState pointX pointY ∧ DistinctUpTo pointState.plast.toNat pointX :=
  by decide +kernel

theorem witness_PointsHold_repeated :
    PointsHold repeatState (fun i => [0x01#8, 0x02#8, 0x01#8].getD i 0x00#8) (fun i => [0xd3#8, 0xed#8, 0xd3#8].getD i 0x00#8) ∧
    ¬ DistinctUpTo repeatState.plast.toNat (fun i => [0x01#8, 0x02#8, 0x01#8].getD i 0x00#8) :=
  by decide +kernel

theorem witness_PointsHold_one_point :
    PointsHold singleState pointX pointY ∧ DistinctUpTo singleState.plast.toNat pointX ∧ singleState.plast = 0x00#8 :=
  by decide +kernel

theorem witness_InterpIsInvariantUnderPermutation :
    swapState.plast = pointState.plast ∧ PointsHold pointState pointX pointY ∧
    PointsHold swapState (fun i => pointX (swap01 i)) (fun i => pointY (swap01 i)) ∧
    (∀ i ≤ pointState.plast.toNat, swap01 i ≤ pointState.plast.toNat) ∧
    (∀ i ≤ pointState.plast.toNat, ∀ j ≤ pointState.plast.toNat, swap01 i = swap01 j → i = j) :=
  by decide +kernel

theorem witness_InterpRecoversThePolynomial :
    CoefHolds bothState polyCoef ∧ PointsHold bothState pointX pointY ∧
    DistinctUpTo bothState.plast.toNat pointX ∧ bothState.cdeg.toNat ≤ bothState.plast.toNat ∧
    (∀ i ≤ bothState.plast.toNat, pointY i = polyValue polyCoef bothState.cdeg.toNat (pointX i)) :=
  by decide +kernel

theorem witness_IllegalIsRaised_undecodable :
    (offering [.command 0x00000000#32] polyState).inbox = [.command 0x00000000#32] ∧
    decode 0x00000000#32 = .error .reservedOpcode :=
  ⟨rfl, rfl⟩

theorem witness_IllegalIsRaised_response :
    (match step (offering [.command 0x00000000#32] polyState) with | .next t => t.outbox | _ => []) =
    (offering [.command 0x00000000#32] polyState).outbox ++ [.fault .illegal] :=
  by decide +kernel

theorem witness_Div0IsRaised_interp :
    (∀ v, Instr.interp 0x07#8 = .interp v → ∀ j ≤ repeatState.plast.toNat,
      memLoad repeatState.px j = some ([0x01#8, 0x02#8, 0x01#8].getD j 0x00#8)) ∧
    responses (exec (.interp 0x07#8) repeatState) = repeatState.outbox ++ [.fault .div0] :=
  ⟨fun _ _ => by decide +kernel, by decide +kernel⟩

theorem witness_Div0IsRaised_gdiv_ginv :
    (∀ v, Instr.gdiv 0x36#8 0x00#8 = .interp v → ∀ j ≤ polyState.plast.toNat, memLoad polyState.px j = some (pointX j)) ∧
    (∀ v, Instr.ginv 0x00#8 = .interp v → ∀ j ≤ polyState.plast.toNat, memLoad polyState.px j = some (pointX j)) ∧
    responses (exec (.gdiv 0x36#8 0x00#8) polyState) = [.fault .div0] ∧ responses (exec (.ginv 0x00#8) polyState) = [.fault .div0] :=
  ⟨fun _ h => (by cases h), fun _ h => (by cases h), by decide +kernel, by decide +kernel⟩

theorem witness_FaultsArePrecise :
    (offering [.command 0x04360000#32, .reset] polyState).inbox = .command 0x04360000#32 :: [.reset] ∧
    ∃ t, step (offering [.command 0x04360000#32, .reset] polyState) = .next t ∧ t.outbox = polyState.outbox ++ [.fault .div0] :=
  ⟨rfl, _, rfl, rfl⟩

theorem witness_IllegalComesBeforeDiv0 :
    (offering [.command 0x04360001#32] polyState).inbox = .command 0x04360001#32 :: [] :=
  rfl

theorem witness_StatusFlagsAreSticky :
    (offering [.command 0x30000000#32] polyState).inbox = .command 0x30000000#32 :: [] ∧
    (∃ t, step (offering [.command 0x30000000#32] polyState) = .next t) ∧ decode 0x30000000#32 ≠ .ok .clrs :=
  ⟨rfl, ⟨_, rfl⟩, fun h => by cases h⟩

theorem witness_StatusFlagsAreSticky_clrs :
    (offering [.command 0x31000000#32] polyState).inbox = .command 0x31000000#32 :: [] ∧
    (∃ t, step (offering [.command 0x31000000#32] polyState) = .next t) ∧ decode 0x31000000#32 = .ok .clrs :=
  ⟨rfl, ⟨_, rfl⟩, rfl⟩

theorem witness_ClearStatusMeansNoCommandFaulted :
    (offering [.command 0x32000000#32] polyState).inbox = [0x32000000#32].map HostEvent.command ∧
    (∀ w ∈ [0x32000000#32], decode w ≠ .ok .clrs) ∧
    (match Sys2Proof.core.run 1 (offering [.command 0x32000000#32] polyState) with
      | .next t => some (t.outbox, dz t.toGfau, il t.toGfau)
      | _ => none) = some (polyState.outbox ++ [.ok 0x00#8], false, false) :=
  ⟨rfl, fun w hw => by rw [List.mem_singleton.1 hw]; decide +kernel, by decide +kernel⟩

theorem witness_FaultingWordFaultsAgain :
    (∀ v, decode 0x25000000#32 = .ok (.interp v) → ∀ j ≤ repeatState.plast.toNat,
      memLoad repeatState.px j = some ([0x01#8, 0x02#8, 0x01#8].getD j 0x00#8)) ∧
    (match step (offering [.command 0x25000000#32, .command 0x25000000#32] repeatState) with | .next t => t.outbox | _ => []) =
      repeatState.outbox ++ [.fault .div0] :=
  ⟨fun _ _ => by decide +kernel, by decide +kernel⟩

theorem witness_NoResultDependsOnStatus :
    Instr.eval 0x02#8 ≠ .rdst ∧ (Instr.rdst = .rdst) :=
  by decide

theorem witness_StepRunsTheDecodedCommand :
    (offering [.command 0x14020000#32] polyState).inbox = .command 0x14020000#32 :: [] ∧
    decode 0x14020000#32 = .ok (.eval 0x02#8) :=
  ⟨rfl, rfl⟩

theorem witness_ProgramRunIsTheUnitsOwnRun :
    (offering [.command 0x24000000#32, .command 0x00000000#32, .reset] pointState).inbox =
      [0x24000000#32, 0x00000000#32].map HostEvent.command ++ [.reset] ∧
    (runWords [0x24000000#32, 0x00000000#32] pointState.toGfau 0).2.1 = [.ok 0x02#8, .fault .illegal] :=
  by decide +kernel

theorem witness_IdleUnitKeepsItsState :
    polyState.inbox = [] :=
  rfl

theorem witness_ResetClearsRegisters :
    (offering [.reset] bothState).inbox = .reset :: [] ∧
    (offering [.abandon 0x14020000#32] bothState).inbox = .abandon 0x14020000#32 :: [] :=
  ⟨rfl, rfl⟩

theorem witness_EveryCommandWordGetsOneResponse :
    (offering [.command 0x00000000#32, .reset] polyState).inbox = .command 0x00000000#32 :: [.reset] :=
  rfl

theorem witness_OnlyTheNamedCommandsWrite :
    (match step (offering [.command 0x10023D00#32] bothState) with | .next t => t.coef | _ => bothState.coef) ≠ bothState.coef ∧
    (match step (offering [.command 0x2000FF00#32] bothState) with | .next t => t.px | _ => bothState.px) ≠ bothState.px ∧
    (match step (offering [.command 0x2000FF00#32] bothState) with | .next t => t.py | _ => bothState.py) ≠ bothState.py ∧
    (match step (offering [.command 0x12FF0000#32] bothState) with | .next t => t.cdeg | _ => bothState.cdeg) ≠ bothState.cdeg ∧
    (match step (offering [.command 0x23FF0000#32] bothState) with | .next t => t.plast | _ => bothState.plast) ≠ bothState.plast ∧
    (match step (offering [.command 0x05000000#32] bothState) with | .next t => t.status | _ => bothState.status) ≠ bothState.status :=
  by decide +kernel

theorem witness_StoredEntrySurvives :
    stored .px bothState.toGfau 0x01#8 = some 0x03#8 ∧
    (offering ([Instr.ldp 0x02#8 0x09#8 0x09#8, .clrs].map (fun i => .command (encode i))) bothState).inbox =
      [Instr.ldp 0x02#8 0x09#8 0x09#8, .clrs].map (fun i => .command (encode i)) ∧
    (∀ x y, Instr.ldp 0x01#8 x y ∉ [Instr.ldp 0x02#8 0x09#8 0x09#8, .clrs]) ∧
    ∃ t, Sys2Proof.core.run 2 (offering ([Instr.ldp 0x02#8 0x09#8 0x09#8, .clrs].map (fun i => .command (encode i))) bothState) = .next t :=
  ⟨rfl, rfl, fun x y h => by simp at h, _, rfl⟩

theorem witness_StoredEntrySurvives_coef :
    stored .coef bothState.toGfau 0x01#8 = some 0xa7#8 ∧
    (∀ v, Instr.ldc 0x01#8 v ∉ [Instr.ldc 0x02#8 0x09#8]) ∧
    ∃ t, Sys2Proof.core.run 1 (offering ([Instr.ldc 0x02#8 0x09#8].map (fun i => .command (encode i))) bothState) = .next t :=
  ⟨rfl, fun v h => by simp at h, _, rfl⟩

/-- A state other than the reset state that meets the invariant, and steps. -/
theorem witness_EveryStepKeepsTheInvariant :
    Inv (offering [.command 0x20020909#32] bothState) ∧
    ∃ t, step (offering [.command 0x20020909#32] bothState) = .next t :=
  ⟨⟨by decide +kernel, by decide +kernel, by decide +kernel, by decide +kernel, by decide +kernel⟩, _, rfl⟩

end Sys2Proof.Tests
end

section
/-! The constant tables `EXP` and `LOG` (10_state.md rules R21, R22). The tables are printed data, so three facts about
them are computed entry by entry: the recurrence of `EXP`, and that `LOG` and `EXP` undo each other in both
orders. Every other fact about the tables is derived from these three. -/

namespace Sys2Proof.Proofs

open Sys2Proof.Machine

/-- The index is taken modulo 255, so this is the recurrence of rule R21 together with the period. -/
theorem expTable_add_one : ∀ k : Fin 255, expTable (k + 1) = gmulRef (expTable k) 0x03#8 := by
  decide +kernel

@[simp] theorem logTable_expTable : ∀ k : Fin 255, logTable (expTable k) = some k := by
  decide +kernel

/-- `EXP[LOG[a]] = a`, as rule R22 derives it. -/
theorem map_expTable_logTable : ∀ {a : Byte}, a ≠ 0x00#8 → (logTable a).map expTable = some a := by
  decide +kernel

@[simp] theorem logTable_zero : logTable 0x00#8 = none := rfl

theorem expTable_injective : Function.Injective expTable := fun k k' h =>
  Option.some.inj <| calc
    some k = logTable (expTable k) := (logTable_expTable k).symm
    _ = logTable (expTable k') := by rw [h]
    _ = some k' := logTable_expTable k'

theorem expTable_ne_zero (k : Fin 255) : expTable k ≠ 0x00#8 := fun h => by
  simpa [h] using logTable_expTable k

theorem exists_expTable_eq {a : Byte} (ha : a ≠ 0x00#8) : ∃ k, expTable k = a := by
  obtain ⟨k, -, hk⟩ := Option.map_eq_some_iff.1 (map_expTable_logTable ha)
  exact ⟨k, hk⟩

theorem logTable_eq_some_iff {a : Byte} {k : Fin 255} : logTable a = some k ↔ expTable k = a := by
  constructor
  · intro h
    have ha : a ≠ 0x00#8 := by rintro rfl; simp at h
    simpa [h] using map_expTable_logTable ha
  · rintro rfl
    exact logTable_expTable k

theorem exists_logTable_eq_some {a : Byte} (ha : a ≠ 0x00#8) : ∃ k, logTable a = some k :=
  (exists_expTable_eq ha).imp fun _ => logTable_eq_some_iff.2

/-- Settles O9: the recurrence is computed; a second index with the same power is excluded because `LOG` undoes
`EXP`, and 0x00 because it has no logarithm. -/
theorem expTableHoldsThePowersOfTheGenerator : Obligations.ExpTableHoldsThePowersOfTheGenerator := by
  refine ⟨rfl, fun k _ => expTable_add_one k, ?period, fun a ha => ?once, expTable_ne_zero⟩
  case period =>
    have wraps : (254 : Fin 255) + 1 = 0 := rfl
    rw [← expTable_add_one, wraps]
    rfl
  case once =>
    obtain ⟨k, rfl⟩ := exists_expTable_eq ha
    exact ⟨k, rfl, fun _ h => expTable_injective h⟩

/-- Settles O10: `LOG` and `EXP` undo each other, and every non-zero byte is a power of the generator. -/
theorem logTableInvertsTheExpTable : Obligations.LogTableInvertsTheExpTable :=
  ⟨fun _ _ => logTable_eq_some_iff, logTable_zero, fun _ => exists_logTable_eq_some⟩

end Sys2Proof.Proofs
end

section
/-! The format test of the decoder (30_encoding.md rules R75, R77) and the fields of the response word (rules R72, R73).
A format's mask and the decoder's test speak of the same operand fields: `Format.UnusedFieldsZero` is what joins them. -/

namespace Sys2Proof

/-! ## The unused operand fields of a command word -/

/-- The operand fields that a format does not use hold 0x00 (rules R71, R77). -/
def Format.UnusedFieldsZero (f : Format) (a b c : Byte) : Prop :=
  match f with
  | .z => a = 0x00#8 ∧ b = 0x00#8 ∧ c = 0x00#8
  | .a => b = 0x00#8 ∧ c = 0x00#8
  | .ab => c = 0x00#8
  | .abc => True

/-- The format of a row of the opcode map (rules R71, R76). -/
def Form.format : Form → Format
  | .z _ => .z
  | .a _ => .a
  | .ab _ => .ab
  | .abc _ => .abc

/-- The map has a row for every command's opcode, and its format is the command's (rule R76). -/
theorem exists_rowOf_opcodeOf (i : Instr) :
    ∃ r, rowOf (opcodeOf i) = some r ∧ r.form.format = i.format := by
  cases i <;> exact ⟨_, rfl, rfl⟩

theorem decode_of_rowOf {w : CmdWord} {r : OpRow} (h : rowOf (cmdOp w) = some r) :
    decode w = fillForm r.form (cmdA w) (cmdB w) (cmdC w) := by
  simp only [decode, h]

theorem fillForm_eq_error {f : Form} {a b c : Byte} (h : ¬ f.format.UnusedFieldsZero a b c) :
    fillForm f a b c = .error .unusedFieldNonzero := by
  cases f with
  | z i => exact if_neg h
  | a g => exact if_neg h
  | ab g => exact if_neg h
  | abc g => exact absurd trivial h

/-- Format Z, which the laws of the encoding's shape leave to computation: its mask keeps the whole word. -/
theorem cmdWord_and_mask_z (op : Byte) :
    cmdWord op 0x00#8 0x00#8 0x00#8 &&& Format.z.mask = op.setWidth 32 <<< 24 := by
  apply BitVec.eq_of_getLsbD_eq
  intro i hi
  simp only [BitVec.getLsbD_and, cmdWord_getLsbD, Format.mask]
  interval_cases i <;> simp

/-- Where the unused fields are 0x00, the mask keeps the opcode and no other bit (rule R71). -/
theorem cmdWord_and_mask {f : Format} {op a b c : Byte} (h : f.UnusedFieldsZero a b c) :
    cmdWord op a b c &&& f.mask = op.setWidth 32 <<< 24 := by
  cases f with
  | z =>
    obtain ⟨rfl, rfl, rfl⟩ := h
    exact cmdWord_and_mask_z op
  | a =>
    obtain ⟨rfl, rfl⟩ := h
    exact Laws.EncodingShape.mask_a ..
  | ab =>
    obtain rfl := h
    exact Laws.EncodingShape.mask_ab ..
  | abc => exact Laws.EncodingShape.mask_abc ..

/-- An opcode in bits 31:24 has no bit among the operand fields (rule R70). -/
theorem opcode_and_operandFields (op : Byte) : op.setWidth 32 <<< 24 &&& 0x00FFFFFF#32 = 0#32 := by
  apply BitVec.eq_of_getLsbD_eq
  intro i hi
  by_cases hlow : i < 24
  · simp [hlow]
  · have outside : (0x00FFFFFF#32).getLsbD i = false := by interval_cases i <;> rfl
    simp [outside]

/-! ## The response word -/

namespace Machine

/-- Bits 15:8 (rule R72). -/
@[simp] theorem Response.extractLsb'_word_code (r : Response) (d : Byte) : (r.word d).extractLsb' 8 8 = r.code :=
  BitVec.extractLsb'_append_eq_left

/-- Bits 7:0 (rule R72). -/
@[simp] theorem Response.extractLsb'_word_data (r : Response) (d : Byte) : (r.word d).extractLsb' 0 8 = r.data d :=
  BitVec.extractLsb'_append_eq_right

end Machine

end Sys2Proof

namespace Sys2Proof.Proofs

open Sys2Proof.Machine

/-- Settles O5: were the unused fields 0x00, the mask would keep the opcode alone; so one is not, and the format
test of the opcode's row rejects the word. -/
theorem nonzeroUnusedFieldIsRejected : Obligations.NonzeroUnusedFieldIsRejected := by
  intro i w hop hbits
  obtain ⟨r, hrow, hformat⟩ := exists_rowOf_opcodeOf i
  have hunused : ¬ r.form.format.UnusedFieldsZero (cmdA w) (cmdB w) (cmdC w) := fun hzero => by
    rw [hformat] at hzero
    rw [← cmdWord_fields w, cmdWord_and_mask hzero] at hbits
    exact hbits (opcode_and_operandFields _)
  rw [decode_of_rowOf (hop ▸ hrow), fillForm_eq_error hunused]

/-- Settles O8: the word's two fields are the response's code and data, and each kind of response fixes both. -/
theorem responseWordCarriesCodeAndData : Obligations.ResponseWordCarriesCodeAndData :=
  ⟨fun _ => rfl, rfl, rfl, Response.extractLsb'_word_code,
    fun v => Response.extractLsb'_word_data (.ok v), fun c => Response.extractLsb'_word_data (.fault c)⟩

end Sys2Proof.Proofs
end

section
/-! The table-free product (41_field.md rule R102) as an algebra: it is additive in its first factor, its factors commute,
and the tables compute it. The loop multiplies by `x` and adds; all of it follows from that, with no enumeration of
operand pairs. -/

namespace Sys2Proof.Proofs

open Sys2Proof.Machine

/-! ## One round of the loop -/

/-- What the carry out of bit 7 adds back: x^8 modulo `POLY`, or nothing. -/
def reduction (carry : Bool) : Byte := if carry then poly.setWidth 8 else 0x00#8

theorem reduction_xor : ∀ c c' : Bool, reduction (c ^^ c') = reduction c ^^^ reduction c' := by decide

/-- The product by `x`, reduced: what `gmul_ref` does to `p` in every round (rule R102). -/
def timesX (p : Byte) : Byte := p <<< 1 ^^^ reduction (p.getLsbD 7)

theorem timesX_eq_ite (p : Byte) :
    timesX p = if p.getLsbD 7 then p <<< 1 ^^^ poly.setWidth 8 else p <<< 1 := by
  rw [timesX]
  cases p.getLsbD 7 with
  | true => rfl
  | false => exact BitVec.xor_zero

theorem gmulRefLoop_succ (a b : Byte) (i : Nat) (p : Byte) :
    gmulRefLoop a b (i + 1) p = gmulRefLoop a b i (if b.getLsbD i then timesX p ^^^ a else timesX p) := by
  rw [timesX_eq_ite]
  rfl

theorem xor_xor_xor_comm (a b c d : Byte) : (a ^^^ b) ^^^ (c ^^^ d) = (a ^^^ c) ^^^ (b ^^^ d) := by ac_rfl

/-- Shift and reduction are both additive. -/
theorem timesX_xor (p q : Byte) : timesX (p ^^^ q) = timesX p ^^^ timesX q := by
  simp only [timesX, BitVec.getLsbD_xor, BitVec.shiftLeft_xor_distrib, reduction_xor]
  exact xor_xor_xor_comm ..

/-! ## The product is additive in its first factor -/

theorem gmulRefLoop_xor (a a' b : Byte) (i : Nat) (p p' : Byte) :
    gmulRefLoop (a ^^^ a') b i (p ^^^ p') = gmulRefLoop a b i p ^^^ gmulRefLoop a' b i p' := by
  induction i generalizing p p' with
  | zero => rfl
  | succ i ih =>
    simp only [gmulRefLoop_succ]
    split
    · rw [← ih, timesX_xor, xor_xor_xor_comm]
    · rw [← ih, timesX_xor]

theorem gmulRef_xor_left (a a' b : Byte) : gmulRef (a ^^^ a') b = gmulRef a b ^^^ gmulRef a' b :=
  gmulRefLoop_xor a a' b 8 0x00#8 0x00#8

@[simp] theorem gmulRef_zero_left (b : Byte) : gmulRef 0x00#8 b = 0x00#8 := by
  simpa using gmulRef_xor_left 0x00#8 0x00#8 b

/-! ## Factors change places -/

theorem gmulRefLoop_timesX (a b : Byte) (i : Nat) (p : Byte) :
    gmulRefLoop (timesX a) b i (timesX p) = timesX (gmulRefLoop a b i p) := by
  induction i generalizing p with
  | zero => rfl
  | succ i ih =>
    simp only [gmulRefLoop_succ, ← ih]
    split
    · rw [timesX_xor]
    · rfl

theorem gmulRef_timesX_left (a b : Byte) : gmulRef (timesX a) b = timesX (gmulRef a b) :=
  gmulRefLoop_timesX a b 8 0x00#8

/-- A product by `c` goes through the loop: it is additive, and it commutes with the product by `x`. -/
theorem gmulRef_gmulRefLoop (a b c : Byte) (i : Nat) (p : Byte) :
    gmulRef (gmulRefLoop a b i p) c = gmulRefLoop (gmulRef a c) b i (gmulRef p c) := by
  induction i generalizing p with
  | zero => rfl
  | succ i ih =>
    simp only [gmulRefLoop_succ, ih]
    split
    · rw [gmulRef_xor_left, gmulRef_timesX_left]
    · rw [gmulRef_timesX_left]

theorem gmulRef_right_comm (a b c : Byte) : gmulRef (gmulRef a b) c = gmulRef (gmulRef a c) b := by
  have h := gmulRef_gmulRefLoop a b c 8 0x00#8
  rwa [gmulRef_zero_left] at h

@[simp] theorem gmulRef_one_left : ∀ b : Byte, gmulRef 0x01#8 b = b := by decide +kernel

theorem gmulRef_comm (a b : Byte) : gmulRef a b = gmulRef b a := by
  simpa using gmulRef_right_comm 0x01#8 a b

/-! ## The tables compute it -/

/-- The powers of the generator multiply by adding their exponents. -/
theorem gmulRef_expTable (k l : Fin 255) : gmulRef (expTable k) (expTable l) = expTable (k + l) := by
  induction k using Fin.induction with
  | zero => rw [zero_add]; exact gmulRef_one_left _
  | succ k ih =>
    rw [← Fin.coeSucc_eq_succ]
    calc gmulRef (expTable (k.castSucc + 1)) (expTable l)
        = gmulRef (gmulRef (expTable k.castSucc) 0x03#8) (expTable l) := by rw [expTable_add_one]
      _ = gmulRef (expTable (k.castSucc + l)) 0x03#8 := by rw [gmulRef_right_comm, ih]
      _ = expTable (k.castSucc + 1 + l) := by rw [← expTable_add_one, add_right_comm]

theorem gmul_zero_left (b : Byte) : gmul 0x00#8 b = 0x00#8 := rfl

theorem gmul_zero_right (a : Byte) : gmul a 0x00#8 = 0x00#8 := by
  simp only [gmul, tableMul, logTable_zero]
  cases logTable a <;> rfl

theorem gmul_expTable (k l : Fin 255) : gmul (expTable k) (expTable l) = expTable (k + l) := by
  simp only [gmul, tableMul, logTable_expTable, logAdd_eq_add]

/-- The two definitions of the product agree (rule R102). -/
theorem gmul_eq_gmulRef (a b : Byte) : gmul a b = gmulRef a b := by
  by_cases ha : a = 0x00#8
  · rw [ha, gmul_zero_left, gmulRef_zero_left]
  by_cases hb : b = 0x00#8
  · rw [hb, gmul_zero_right, gmulRef_comm, gmulRef_zero_left]
  obtain ⟨k, rfl⟩ := exists_expTable_eq ha
  obtain ⟨l, rfl⟩ := exists_expTable_eq hb
  rw [gmul_expTable, gmulRef_expTable]

end Sys2Proof.Proofs
end

section
/-! The quotient (41_field.md rule R103): by a non-zero divisor it is the one solution of `d * b = a`, for division
undoes the product. -/

namespace Sys2Proof.Proofs

open Sys2Proof.Machine

theorem gdiv_zero_right (a : Byte) : gdiv a 0x00#8 = none := rfl

theorem gdiv_zero_left {b : Byte} (hb : b ≠ 0x00#8) : gdiv 0x00#8 b = some 0x00#8 := by
  obtain ⟨k, rfl⟩ := exists_expTable_eq hb
  simp only [gdiv, tableDiv, logTable_expTable, logTable_zero]

theorem gdiv_expTable (k l : Fin 255) : gdiv (expTable k) (expTable l) = some (expTable (k - l)) := by
  simp only [gdiv, tableDiv, logTable_expTable, logSub_eq_sub]

theorem gdiv_gmulRef (d : Byte) {b : Byte} (hb : b ≠ 0x00#8) : gdiv (gmulRef d b) b = some d := by
  by_cases hd : d = 0x00#8
  · rw [hd, gmulRef_zero_left, gdiv_zero_left hb]
  obtain ⟨k, rfl⟩ := exists_expTable_eq hd
  obtain ⟨l, rfl⟩ := exists_expTable_eq hb
  rw [gmulRef_expTable, gdiv_expTable, add_sub_cancel_right]

theorem gmulRef_left_injective {b : Byte} (hb : b ≠ 0x00#8) : Function.Injective (gmulRef · b) := fun d d' h =>
  Option.some.inj <| calc
    some d = gdiv (gmulRef d b) b := (gdiv_gmulRef d hb).symm
    _ = gdiv (gmulRef d' b) b := congrArg (gdiv · b) h
    _ = some d' := gdiv_gmulRef d' hb

/-- An injective map of the finitely many bytes reaches each of them. -/
theorem exists_gmulRef_eq (a : Byte) {b : Byte} (hb : b ≠ 0x00#8) : ∃ d, gmulRef d b = a :=
  Finite.surjective_of_injective (gmulRef_left_injective hb) a

end Sys2Proof.Proofs
end

section
/-! The field commands (41_field.md rules R106 to R110). -/

namespace Sys2Proof.Proofs

open Sys2Proof.Machine

/-! ## The two ways a command ends that writes no other state -/

theorem exec_of_replyOk {i : Instr} {s : State} {v : Byte}
    (h : commandReply i s.toGfau s.draws = replyOk v s.toGfau s.draws) :
    exec i s = .next { s with outbox := s.outbox ++ [.ok v] } := by
  rw [exec_eq_answer, answer, h]
  rfl

theorem exec_of_raiseFault {i : Instr} {s : State} {c : FaultCode}
    (h : commandReply i s.toGfau s.draws = raiseFault c s.toGfau s.draws) :
    exec i s = .next { s with status := s.status ||| flagOf c, outbox := s.outbox ++ [.fault c] } := by
  rw [exec_eq_answer, answer, h]
  rfl

/-! ## Division -/

theorem exec_gdiv_zero (a : Byte) (s : State) : exec (.gdiv a 0x00#8) s =
    .next { s with status := s.status ||| 0x01#8, outbox := s.outbox ++ [.fault .div0] } :=
  exec_of_raiseFault (c := .div0) <| by
    rw [commandReply, gdivReply, gdiv_zero_right, replyOrDiv0_none]

theorem exec_gdiv_of_some {a b d : Byte} (h : gdiv a b = some d) (s : State) :
    exec (.gdiv a b) s = .next { s with outbox := s.outbox ++ [.ok d] } :=
  exec_of_replyOk <| by rw [commandReply, gdivReply, h, replyOrDiv0_some]

/-- Where the divisor is not 0x00, `GDIV` responds with the only solution of `d * b = a`. -/
theorem exec_gdiv_unique_quotient (a : Byte) {b : Byte} (hb : b ≠ 0x00#8) (s : State) :
    ∃ d, exec (.gdiv a b) s = .next { s with outbox := s.outbox ++ [.ok d] } ∧
      gmulRef d b = a ∧ ∀ d', gmulRef d' b = a → d' = d := by
  obtain ⟨d, rfl⟩ := exists_gmulRef_eq a hb
  exact ⟨d, exec_gdiv_of_some (gdiv_gmulRef d hb) s, rfl, fun _ h => gmulRef_left_injective hb h⟩

/-- Inversion is the division of 0x01 (rule R104), and so is the command (rule R110). -/
theorem exec_ginv_eq_exec_gdiv (a : Byte) (s : State) : exec (.ginv a) s = exec (.gdiv 0x01#8 a) s := rfl

/-! ## Words with the opcode of `GADD` -/

/-- Format AB: a word with `GADD`'s opcode and a non-zero field `c` is no command (rules R77, R106). -/
theorem decode_gadd_of_ne_zero (a b : Byte) {c : Byte} (hc : c ≠ 0x00#8) :
    decode (cmdWord 0x01#8 a b c) = .error .unusedFieldNonzero := by
  have hrow : rowOf (cmdOp (cmdWord 0x01#8 a b c)) = some ⟨0x01#8, "GADD", .ab .gadd⟩ := by
    rw [cmdOp_cmdWord]
    rfl
  rw [decode_of_rowOf hrow, cmdC_cmdWord]
  exact fillForm_eq_error hc

/-! ## The obligations -/

/-- Settles O15: the unit's tables compute the table-free product. -/
theorem gmulRespondsWithTheProduct : Obligations.GmulRespondsWithTheProduct := by
  refine fun a b s => ⟨exec_of_replyOk ?_, rfl⟩
  rw [commandReply, gmulReply, gmul_eq_gmulRef]

/-- Settles O16: the quotient has no value for 0x00, and otherwise is the one solution of `d * b = a`. -/
theorem gdivRespondsWithTheUniqueQuotient : Obligations.GdivRespondsWithTheUniqueQuotient := by
  refine fun a b s => ⟨?zero, fun hb => exec_gdiv_unique_quotient a hb s, rfl⟩
  case zero =>
    rintro rfl
    exact exec_gdiv_zero a s

/-- Settles O17: `GINV a` is `GDIV 0x01, a`, of which the rest is known. -/
theorem ginvRespondsWithTheUniqueInverse : Obligations.GinvRespondsWithTheUniqueInverse := by
  refine fun a s => ⟨?zero, ?inverse, exec_ginv_eq_exec_gdiv a s, rfl⟩
  case zero =>
    rintro rfl
    exact exec_gdiv_zero 0x01#8 s
  case inverse =>
    intro ha
    rw [exec_ginv_eq_exec_gdiv]
    exact exec_gdiv_unique_quotient 0x01#8 ha s

/-- Settles O14: both functions are the bitwise XOR by definition; the decoder's format test does the rest. -/
theorem gaddAndGsubRespondWithXor : Obligations.GaddAndGsubRespondWithXor := fun a b _ =>
  ⟨exec_of_replyOk rfl, exec_of_replyOk rfl, rfl, fun _ => decode_gadd_of_ne_zero a b, rfl⟩

end Sys2Proof.Proofs
end

section
/-! The polynomial evaluator's commands and the reads of the three memories (42_poly_eval.md rules R120 to R124,
43_lagrange.md rules R141, R142). -/

namespace Sys2Proof.Proofs

open Sys2Proof.Machine

/-! ## What a command that ends OK leaves behind -/

/-- Whatever unit a command that ends OK hands back, the machine goes on with it (rules R57, R192). -/
theorem exec_of_replyOk_unit {i : Instr} {s : State} {v : Byte} {u : Gfau} {k : Nat}
    (h : commandReply i s.toGfau s.draws = replyOk v u k) :
    exec i s = .next { s with toGfau := u, draws := k, outbox := s.outbox ++ [.ok v] } := by
  rw [exec_eq_answer, answer, h]
  rfl

/-! ## Reads of one entry -/

theorem readReply_of_stored {sp : Space} {u : Gfau} {j v : Byte} (h : stored sp u j = some v) (k : Nat) :
    readReply sp j u k = replyOk v u k := by
  rw [readReply, memRead_written h]

theorem readReply_of_not_stored {sp : Space} {u : Gfau} {j : Byte} (h : stored sp u j = none) (k : Nat) :
    readReply sp j u k = replyOk (Config.freeByte k) u (k + 1) := by
  rw [readReply, memRead_unwritten h]

section ReadCommand

variable {i : Instr} {sp : Space} {j : Byte}

/-- A command that reads a written entry responds with its byte, and no state changes. -/
theorem exec_read_of_stored (hi : commandReply i = readReply sp j) {s : State} (v : Byte)
    (h : stored sp s.toGfau j = some v) : exec i s = .next { s with outbox := s.outbox ++ [.ok v] } :=
  exec_of_replyOk <| by rw [hi, readReply_of_stored h]

/-- A command that reads an unwritten entry responds with a byte drawn for it: no fault (rule R194). -/
theorem exec_read_of_not_stored (hi : commandReply i = readReply sp j) {s : State}
    (h : stored sp s.toGfau j = none) :
    ∃ v k, exec i s = .next { s with draws := k, outbox := s.outbox ++ [.ok v] } :=
  ⟨Config.freeByte s.draws, s.draws + 1, exec_of_replyOk_unit <| by rw [hi, readReply_of_not_stored h]⟩

end ReadCommand

/-! ## Horner's loop -/

/-- `CoefHolds` is what the loop asks of the entries below `CDEG + 1`. -/
theorem horner_of_coefHolds {s : State} {c : Nat → Byte} (h : CoefHolds s c) (x : Byte) (k : Nat) :
    horner x s.toGfau k =
      ((List.range (s.cdeg.toNat + 1)).foldr (fun i acc => gadd (gmul acc x) (c i)) 0x00#8, k) :=
  hornerLoop_written x _ _ k fun i hi => h i (Nat.le_of_lt_succ hi)

theorem exec_eval_of_coefHolds {s : State} {c : Nat → Byte} (h : CoefHolds s c) (x : Byte) :
    exec (.eval x) s = .next { s with outbox := s.outbox ++
      [.ok ((List.range (s.cdeg.toNat + 1)).foldr (fun i acc => gadd (gmul acc x) (c i)) 0x00#8)] } :=
  exec_of_replyOk <| by rw [commandReply, evalReply, horner_of_coefHolds h]

/-! ## The obligations -/

/-- Settles O18: the new `COEF` is the old one with one entry stored. -/
theorem ldcWritesOneCoefficient : Obligations.LdcWritesOneCoefficient := fun i v s =>
  ⟨⟨memStore s.coef i.toNat v, exec_of_replyOk_unit rfl, fun j => memLoad_memStore s.coef i.toNat j v⟩, rfl⟩

/-- Settles O24: over written coefficients the loop draws no free byte; in any state it ends
OK on the unit it began with. -/
theorem evalIsHornersLoop : Obligations.EvalIsHornersLoop := by
  refine ⟨fun s c x h => exec_eval_of_coefHolds h x, fun s x => ?anyState, fun _ => rfl⟩
  case anyState =>
    exact ⟨(horner x s.toGfau s.draws).1, (horner x s.toGfau s.draws).2, exec_of_replyOk_unit rfl⟩

/-- Settles O20: the three commands are one read, each of its own space. -/
theorem readCommandsRespondWithTheEntry : Obligations.ReadCommandsRespondWithTheEntry := fun _ _ =>
  ⟨exec_read_of_stored (sp := .coef) rfl, exec_read_of_not_stored (sp := .coef) rfl,
    exec_read_of_stored (sp := .px) rfl, exec_read_of_not_stored (sp := .px) rfl,
    exec_read_of_stored (sp := .py) rfl, exec_read_of_not_stored (sp := .py) rfl, rfl, rfl, rfl⟩

/-- Settles O21: `SETDEG` hands back the unit with another `CDEG`, `RDDEG` the unit as it was, and reset
clears `CDEG`. -/
theorem setdegWritesAndRddegReadsCdeg : Obligations.SetdegWritesAndRddegReadsCdeg :=
  ⟨fun _ _ => ⟨exec_of_replyOk_unit rfl, rfl⟩, fun _ => exec_of_replyOk rfl, rfl, exec_of_replyOk rfl⟩

end Sys2Proof.Proofs
end

section
/-! The commands that load a point and the index of the last point (43_lagrange.md rules R140, R143, R144). -/

namespace Sys2Proof.Proofs

open Sys2Proof.Machine

/-- On a word given by its fields, decoding is the format test of the opcode's row (rule R75). -/
theorem decode_cmdWord_of_rowOf {op : Byte} {r : OpRow} (h : rowOf op = some r) (a b c : Byte) :
    decode (cmdWord op a b c) = fillForm r.form a b c := by
  rw [decode_of_rowOf (by rwa [cmdOp_cmdWord]), cmdA_cmdWord, cmdB_cmdWord, cmdC_cmdWord]

/-- Format ABC has no unused field, so every word with `LDP`'s opcode is legal (rules R71, R140). -/
theorem decode_ldp (i x y : Byte) : decode (cmdWord 0x20#8 i x y) = .ok (.ldp i x y) :=
  decode_cmdWord_of_rowOf (r := ⟨0x20#8, "LDP", .abc .ldp⟩) rfl i x y

/-- Settles O19: the new `PX` and the new `PY` are the old ones with one entry stored; the stored x-coordinates are
not looked at. -/
theorem ldpWritesOnePoint : Obligations.LdpWritesOnePoint := by
  refine fun i x y s => ⟨⟨memStore s.px i.toNat x, memStore s.py i.toNat y, ?exec, ?px, ?py⟩, rfl, decode_ldp i x y⟩
  case exec => exact exec_of_replyOk_unit rfl
  case px => exact fun j => memLoad_memStore s.px i.toNat j x
  case py => exact fun j => memLoad_memStore s.py i.toNat j y

/-- Settles O22: `SETPN` hands back the unit with another `PLAST`, `RDPN` the unit as it was, and reset
clears `PLAST`. -/
theorem setpnWritesAndRdpnReadsPlast : Obligations.SetpnWritesAndRdpnReadsPlast :=
  ⟨fun _ _ => ⟨exec_of_replyOk_unit rfl, rfl⟩, fun _ => exec_of_replyOk rfl, rfl, exec_of_replyOk rfl⟩

end Sys2Proof.Proofs
end

section
/-! The system commands (44_system.md rules R160 to R162). -/

namespace Sys2Proof.Proofs

open Sys2Proof.Machine

/-- The mask keeps the two implemented flags, `IL` above `DZ`, and reads the six other bits as 0 (rule R30). -/
theorem readStatus_eq_append (u : Gfau) :
    readStatus u = 0#6 ++ BitVec.ofBool (u.status.getLsbD 1) ++ BitVec.ofBool (u.status.getLsbD 0) := by
  apply BitVec.eq_of_getLsbD_eq
  intro i hi
  simp only [readStatus, statusMask, BitVec.getLsbD_and, BitVec.getLsbD_append]
  interval_cases i <;> simp

theorem exec_rdst (s : State) : exec .rdst s = .next { s with
    outbox := s.outbox ++ [.ok (0#6 ++ BitVec.ofBool (s.status.getLsbD 1) ++ BitVec.ofBool (s.status.getLsbD 0))] } :=
  exec_of_replyOk <| by rw [commandReply, rdstReply, readStatus_eq_append]

/-- Settles O23: `RDST` reads through the mask, `CLRS` hands back the unit with `STATUS` cleared, `NOP` the unit as it
was. -/
theorem systemCommandsReadAndClearStatus : Obligations.SystemCommandsReadAndClearStatus :=
  ⟨exec_rdst, fun _ => exec_of_replyOk_unit rfl, fun _ => exec_of_replyOk rfl, rfl, rfl, rfl⟩

end Sys2Proof.Proofs
end

section
/-! The two faults (60_exceptions.md rules R171, R172): which words raise `ILLEGAL`, which commands raise `DIV0`, and
that a fault writes nothing but its flag. A command's reply is a fault only where one of its divisions has no value;
an illegal word has no command, so no command replies `ILLEGAL`. -/

namespace Sys2Proof.Proofs

open Sys2Proof.Machine

/-! ## Divisions without a value -/

theorem gdiv_eq_none_iff {a b : Byte} : gdiv a b = none ↔ b = 0x00#8 := by
  constructor
  · intro h
    by_contra hb
    obtain ⟨d, rfl⟩ := exists_gmulRef_eq a hb
    simp [gdiv_gmulRef d hb] at h
  · rintro rfl
    exact gdiv_zero_right a

/-- A denominator of rule R146 is 0x00 exactly for equal x-coordinates. -/
theorem gsub_eq_zero_iff {a b : Byte} : gsub a b = 0x00#8 ↔ a = b := BitVec.xor_eq_zero_iff

/-! ## Interpolation over written x-coordinates -/

/-- A fold of partial steps whose failure does not depend on the value so far fails exactly where some step does. -/
theorem foldl_bind_eq_none_iff {ι α : Type} {g : ι → α → Option α} {fails : ι → Prop}
    (hg : ∀ j l, g j l = none ↔ fails j) (js : List ι) (acc : Option α) :
    js.foldl (fun acc j => acc.bind (g j)) acc = none ↔ acc = none ∨ ∃ j ∈ js, fails j := by
  induction js generalizing acc with
  | nil => simp
  | cons j js ih =>
    rw [List.foldl_cons, ih]
    cases acc with
    | none => simp
    | some l => simp [hg]

section WrittenXCoordinates

variable {px : Memory} {x : Nat → Byte} {js : List Nat} (hjs : ∀ j ∈ js, memLoad px j = some (x j))

include hjs

/-- The basis value of a point has no value exactly where another point has its x-coordinate. -/
theorem basisLoop_eq_none_iff {i : Nat} (hi : memLoad px i = some (x i)) (v l : Byte) (k : Nat) :
    (basisLoop px v i js l k).1 = none ↔ ∃ j ∈ js, i ≠ j ∧ x i = x j := by
  rw [basisLoop_written v i hi js l k hjs,
    foldl_bind_eq_none_iff (fails := fun j => i ≠ j ∧ x i = x j) fun j l' => ?step]
  case step =>
    split
    next hsame => simp [hsame]
    next hother => simp [Ne.symm hother, gdiv_eq_none_iff, gsub_eq_zero_iff]
  simp

/-- The outer loop stops exactly where some basis value has no value; which of the y-coordinates are written does not
matter. -/
theorem interpLoop_eq_none_iff {is : List Nat} (his : ∀ i ∈ is, memLoad px i = some (x i)) (py : Memory)
    (v sum : Byte) (k : Nat) :
    (interpLoop px py v js is sum k).1 = none ↔ ∃ i ∈ is, ∃ j ∈ js, i ≠ j ∧ x i = x j := by
  induction is generalizing sum k with
  | nil => simp [interpLoop]
  | cons i is ih =>
    obtain ⟨hi, his⟩ := List.forall_mem_cons.1 his
    have hbasis := basisLoop_eq_none_iff hjs hi v 0x01#8 k
    rw [interpLoop, List.exists_mem_cons_iff, ← hbasis]
    split
    next hnone => simp [hnone]
    next hsome => simp [hsome, ih his]

end WrittenXCoordinates

theorem mem_pointNumbers {u : Gfau} {j : Nat} : j ∈ pointNumbers u ↔ j ≤ u.plast.toNat :=
  List.mem_range.trans Nat.lt_succ_iff

/-- Interpolation has no value exactly where two points in use share an x-coordinate (rules R146, R171). -/
theorem interpolate_eq_none_iff {u : Gfau} {x : Nat → Byte}
    (hx : ∀ j ≤ u.plast.toNat, memLoad u.px j = some (x j)) (v : Byte) (k : Nat) :
    (interpolate v u k).1 = none ↔ ¬ DistinctUpTo u.plast.toNat x := by
  have hpoints : ∀ j ∈ pointNumbers u, memLoad u.px j = some (x j) := fun j hj => hx j (mem_pointNumbers.1 hj)
  rw [interpolate, interpLoop_eq_none_iff hpoints hpoints]
  simp only [mem_pointNumbers, DistinctUpTo]
  push Not
  rfl

/-! ## Commands whose reply is a fault -/

theorem replyOrDiv0_response_eq_div0_iff {r : Option Byte} {u : Gfau} {k : Nat} :
    (replyOrDiv0 r u k).response = .fault .div0 ↔ r = none := by
  cases r <;> simp

theorem gdiv_response_eq_div0_iff {a b : Byte} {u : Gfau} {k : Nat} :
    (commandReply (.gdiv a b) u k).response = .fault .div0 ↔ b = 0x00#8 :=
  replyOrDiv0_response_eq_div0_iff.trans gdiv_eq_none_iff

theorem ginv_response_eq_div0_iff {a : Byte} {u : Gfau} {k : Nat} :
    (commandReply (.ginv a) u k).response = .fault .div0 ↔ a = 0x00#8 :=
  replyOrDiv0_response_eq_div0_iff.trans gdiv_eq_none_iff

theorem interp_response_eq_div0_iff {v : Byte} {u : Gfau} {x : Nat → Byte}
    (hx : ∀ j ≤ u.plast.toNat, memLoad u.px j = some (x j)) {k : Nat} :
    (commandReply (.interp v) u k).response = .fault .div0 ↔ ¬ DistinctUpTo u.plast.toNat x :=
  replyOrDiv0_response_eq_div0_iff.trans (interpolate_eq_none_iff hx v k)

/-- `DIV0`'s three causes (rule R171). -/
theorem commandReply_response_eq_div0_iff {i : Instr} {u : Gfau} {x : Nat → Byte}
    (hx : ∀ v, i = .interp v → ∀ j ≤ u.plast.toNat, memLoad u.px j = some (x j)) (k : Nat) :
    (commandReply i u k).response = .fault .div0 ↔
      (∃ a, i = .gdiv a 0x00#8) ∨ i = .ginv 0x00#8 ∨ ((∃ v, i = .interp v) ∧ ¬ DistinctUpTo u.plast.toNat x) := by
  constructor
  · intro h
    cases commandReply_effect i u k with
    | ok v response => simp [response] at h
    | div0 divides =>
      obtain ⟨a, b, rfl⟩ | ⟨a, rfl⟩ | ⟨v, rfl⟩ := divides
      · exact .inl ⟨a, by rw [gdiv_response_eq_div0_iff.1 h]⟩
      · exact .inr (.inl (by rw [ginv_response_eq_div0_iff.1 h]))
      · exact .inr (.inr ⟨⟨v, rfl⟩, (interp_response_eq_div0_iff (hx v rfl)).1 h⟩)
  · rintro (⟨a, rfl⟩ | rfl | ⟨⟨v, rfl⟩, hrepeated⟩)
    · exact gdiv_response_eq_div0_iff.2 rfl
    · exact ginv_response_eq_div0_iff.2 rfl
    · exact (interp_response_eq_div0_iff (hx v rfl)).2 hrepeated

/-- `DIV0` writes no state of the unit but its flag. -/
theorem commandReply_unit_of_div0 {i : Instr} {u : Gfau} {k : Nat}
    (h : (commandReply i u k).response = .fault .div0) : (commandReply i u k).unit = setFlag .div0 u := by
  cases commandReply_effect i u k with
  | ok v response => simp [response] at h
  | div0 _ _ unit => exact unit

theorem commandReply_response_ne_illegal (i : Instr) (u : Gfau) (k : Nat) :
    (commandReply i u k).response ≠ .fault .illegal := by
  cases commandReply_effect i u k with
  | ok v response => simp [response]
  | div0 _ response => simp [response]

theorem gfauStep_response_eq_illegal_iff {w : CmdWord} {u : Gfau} {k : Nat} :
    (gfauStep w u k).response = .fault .illegal ↔ ∃ why, decode w = .error why := by
  cases hw : decode w with
  | ok i => simp [gfauStep_of_ok hw, commandReply_response_ne_illegal]
  | error why => simp [gfauStep_of_error hw]

/-! ## On the machine -/

/-- A step on a command word delivers the unit's own step (rule R36). -/
theorem step_command {s : State} {w : CmdWord} {es : List HostEvent} (h : s.inbox = .command w :: es) :
    step s = .next (deliver (gfauStep w s.toGfau s.draws) { s with inbox := es }) := by
  rw [step_eq_serve h, serve, serveWord]
  cases hw : decode w with
  | ok i =>
    rw [gfauStep_of_ok hw]
    exact exec_eq_answer i _
  | error why =>
    rw [gfauStep_of_error hw]
    rfl

theorem exec_eq_next_iff {i : Instr} {s t : State} :
    exec i s = .next t ↔ deliver (commandReply i s.toGfau s.draws) s = t := by
  rw [exec_eq_answer, answer_eq_next_iff]

/-! ## The obligations -/

/-- Settles O32: an illegal word's reply is the fault itself, and no command's reply is `ILLEGAL`. -/
theorem illegalIsRaisedExactlyForUndecodableWords : Obligations.IllegalIsRaisedExactlyForUndecodableWords := by
  intro s w es hin
  rw [step_command hin]
  refine ⟨fun ⟨why, hw⟩ => ?raised, fun ⟨t, ht, hout⟩ => ?only, rfl, fun _ => rfl⟩
  case raised =>
    rw [gfauStep_of_error hw]
    rfl
  case only =>
    cases ht
    exact gfauStep_response_eq_illegal_iff.1 (by simpa using hout)

/-- Settles O33: the reply is `DIV0` exactly where a division has no value, and then only the flag is written. -/
theorem div0IsRaisedExactlyForZeroDivisors : Obligations.Div0IsRaisedExactlyForZeroDivisors := by
  intro i s x hx
  refine ⟨?causes, fun t ht hout => ?frame, rfl, fun _ => rfl⟩
  case causes =>
    rw [← commandReply_response_eq_div0_iff hx s.draws]
    simp [exec_eq_next_iff]
  case frame =>
    obtain rfl := exec_eq_next_iff.1 ht
    have hresponse : (commandReply i s.toGfau s.draws).response = .fault .div0 := by simpa using hout
    rw [deliver, commandReply_unit_of_div0 hresponse, hresponse]
    rfl

end Sys2Proof.Proofs
end

section
/-! The encoding (30_encoding.md rules R71, R75, R77, R78). A row of the opcode map, read as a function of all three
operand fields, is what joins the decoder's format test and the encoder. -/

namespace Sys2Proof

/-- A row's command as a function of all three operand fields; it does not look at those its format does not use. -/
def Form.command (f : Form) (a b c : Byte) : Instr :=
  match f with
  | .z i => i
  | .a g => g a
  | .ab g => g a b
  | .abc g => g a b c

/-! ## The decoder by rows -/

theorem fillForm_eq_ok {f : Form} {a b c : Byte} (h : f.format.UnusedFieldsZero a b c) :
    fillForm f a b c = .ok (f.command a b c) := by
  cases f with
  | z i => exact if_pos h
  | a g => exact if_pos h
  | ab g => exact if_pos h
  | abc g => rfl

/-- The decoder's format test (rule R75). -/
theorem fillForm_eq_ok_iff {f : Form} {a b c : Byte} {i : Instr} :
    fillForm f a b c = .ok i ↔ f.format.UnusedFieldsZero a b c ∧ f.command a b c = i := by
  by_cases h : f.format.UnusedFieldsZero a b c
  · simp [fillForm_eq_ok h, h]
  · simp [fillForm_eq_error h, h]

theorem fillForm_ne_reservedOpcode (f : Form) (a b c : Byte) : fillForm f a b c ≠ .error .reservedOpcode := by
  by_cases h : f.format.UnusedFieldsZero a b c
  · simp [fillForm_eq_ok h]
  · simp [fillForm_eq_error h]

theorem decode_eq_ok_iff {w : CmdWord} {i : Instr} :
    decode w = .ok i ↔ ∃ r, rowOf (cmdOp w) = some r ∧ r.form.format.UnusedFieldsZero (cmdA w) (cmdB w) (cmdC w) ∧
      r.form.command (cmdA w) (cmdB w) (cmdC w) = i := by
  cases h : rowOf (cmdOp w) with
  | none => simp [decode, h]
  | some r => simp [decode_of_rowOf h, fillForm_eq_ok_iff]

theorem decode_eq_reservedOpcode_iff {w : CmdWord} : decode w = .error .reservedOpcode ↔ rowOf (cmdOp w) = none := by
  cases h : rowOf (cmdOp w) with
  | none => simp [decode, h]
  | some r => simp [decode_of_rowOf h, fillForm_ne_reservedOpcode]

/-! ## Commands and rows -/

/-- Every command is what its opcode's row makes of the operand fields of its word (rules R70, R76). -/
theorem exists_row_and_fields (i : Instr) : ∃ r a b c, encode i = cmdWord (opcodeOf i) a b c ∧
    rowOf (opcodeOf i) = some r ∧ r.form.format.UnusedFieldsZero a b c ∧ r.form.command a b c = i := by
  cases i with
  | ldp a b c => exact ⟨_, a, b, c, rfl, rfl, trivial, rfl⟩
  | gadd a b | gsub a b | gmul a b | gdiv a b | ldc a b => exact ⟨_, a, b, _, rfl, rfl, rfl, rfl⟩
  | ginv a | rdc a | setdeg a | eval a | rdpx a | rdpy a | setpn a | interp a =>
    exact ⟨_, a, _, _, rfl, rfl, ⟨rfl, rfl⟩, rfl⟩
  | _ => exact ⟨_, _, _, _, rfl, rfl, ⟨rfl, rfl, rfl⟩, rfl⟩

theorem mem_opcodeMap_of_rowOf {op : Byte} {r : OpRow} (h : rowOf op = some r) : r ∈ opcodeMap ∧ r.op = op :=
  ⟨List.mem_of_find?_eq_some h, by simpa using List.find?_some h⟩

/-- The encoder goes back from a row's command to the row's opcode and the fields the command was made of. -/
theorem encode_command {r : OpRow} (hr : r ∈ opcodeMap) {a b c : Byte} (h : r.form.format.UnusedFieldsZero a b c) :
    encode (r.form.command a b c) = cmdWord r.op a b c := by
  fin_cases hr <;>
    simp only [Form.format, Format.UnusedFieldsZero] at h <;>
    simp only [h, Form.command, encode, opcodeOf]

theorem opcodeOf_command {r : OpRow} (hr : r ∈ opcodeMap) (a b c : Byte) : opcodeOf (r.form.command a b c) = r.op := by
  fin_cases hr <;> rfl

/-! ## The mask of a format -/

theorem cmdWord_and (op a b c op' a' b' c' : Byte) :
    cmdWord op a b c &&& cmdWord op' a' b' c' = cmdWord (op &&& op') (a &&& a') (b &&& b') (c &&& c') := by
  apply BitVec.eq_of_getLsbD_eq
  intro i hi
  simp only [BitVec.getLsbD_and, cmdWord_getLsbD]
  split_ifs <;> rfl

/-- An opcode in bits 31:24 is a word with no operand (rule R70). -/
theorem cmdWord_zero_operands (op : Byte) : cmdWord op 0x00#8 0x00#8 0x00#8 = op.setWidth 32 <<< 24 := by
  rw [← cmdWord_and_mask_z]
  exact BitVec.and_allOnes.symm

theorem byte_and_ff (a : Byte) : a &&& 0xFF#8 = a := BitVec.and_allOnes

/-- Under a mask that keeps the opcode, what is kept of each operand field must be 0x00. -/
theorem cmdWord_and_cmdWord_iff {op op' a b c ma mb mc : Byte} :
    cmdWord op a b c &&& cmdWord 0xFF#8 ma mb mc = op'.setWidth 32 <<< 24 ↔
      op = op' ∧ a &&& ma = 0x00#8 ∧ b &&& mb = 0x00#8 ∧ c &&& mc = 0x00#8 := by
  rw [← cmdWord_zero_operands, cmdWord_and, cmdWord_inj, byte_and_ff]

/-- A word matches an opcode under a format's mask exactly when it has that opcode and the fields the format does not
use hold 0x00 (rule R71). -/
theorem cmdWord_and_mask_iff {f : Format} {op op' a b c : Byte} :
    cmdWord op a b c &&& f.mask = op'.setWidth 32 <<< 24 ↔ op = op' ∧ f.UnusedFieldsZero a b c := by
  cases f with
  | z => exact cmdWord_and_cmdWord_iff (ma := 0xFF#8) (mb := 0xFF#8) (mc := 0xFF#8) |>.trans (by
      simp [byte_and_ff, Format.UnusedFieldsZero])
  | a => exact cmdWord_and_cmdWord_iff (ma := 0x00#8) (mb := 0xFF#8) (mc := 0xFF#8) |>.trans (by
      simp [byte_and_ff, Format.UnusedFieldsZero])
  | ab => exact cmdWord_and_cmdWord_iff (ma := 0x00#8) (mb := 0x00#8) (mc := 0xFF#8) |>.trans (by
      simp [byte_and_ff, Format.UnusedFieldsZero])
  | abc => exact cmdWord_and_cmdWord_iff (ma := 0x00#8) (mb := 0x00#8) (mc := 0x00#8) |>.trans (by
      simp [Format.UnusedFieldsZero])

theorem and_mask_iff {w : CmdWord} {f : Format} {op : Byte} :
    w &&& f.mask = op.setWidth 32 <<< 24 ↔ cmdOp w = op ∧ f.UnusedFieldsZero (cmdA w) (cmdB w) (cmdC w) := by
  rw [← cmdWord_and_mask_iff, cmdWord_fields]

/-- The opcode map gives an opcode one format. -/
theorem format_eq_of_opcodeOf_eq {i j : Instr} (h : opcodeOf i = opcodeOf j) : i.format = j.format := by
  obtain ⟨r, hrow, hformat⟩ := exists_rowOf_opcodeOf i
  obtain ⟨r', hrow', hformat'⟩ := exists_rowOf_opcodeOf j
  obtain rfl : r = r' := Option.some.inj (by rw [← hrow, h, hrow'])
  exact hformat.symm.trans hformat'

theorem cmdOp_of_decode {w : CmdWord} {i : Instr} (h : decode w = .ok i) : cmdOp w = opcodeOf i := by
  obtain ⟨r, hrow, -, rfl⟩ := decode_eq_ok_iff.1 h
  obtain ⟨hmem, hop⟩ := mem_opcodeMap_of_rowOf hrow
  rw [opcodeOf_command hmem, hop]

theorem decode_encode (i : Instr) : decode (encode i) = .ok i := by
  obtain ⟨r, a, b, c, hword, hrow, hunused, hcommand⟩ := exists_row_and_fields i
  rw [hword, Proofs.decode_cmdWord_of_rowOf hrow, fillForm_eq_ok hunused, hcommand]

theorem encode_of_decode {w : CmdWord} {i : Instr} (h : decode w = .ok i) : encode i = w := by
  obtain ⟨r, hrow, hunused, rfl⟩ := decode_eq_ok_iff.1 h
  obtain ⟨hmem, hop⟩ := mem_opcodeMap_of_rowOf hrow
  rw [encode_command hmem hunused, hop, cmdWord_fields]

/-- Legality by the opcode and the unused fields of some command (rules R71, R75, R77). -/
theorem exists_decode_iff {w : CmdWord} : (∃ i, decode w = .ok i) ↔
    ∃ j : Instr, cmdOp w = opcodeOf j ∧ j.format.UnusedFieldsZero (cmdA w) (cmdB w) (cmdC w) := by
  constructor
  · rintro ⟨i, h⟩
    obtain ⟨r, hrow, hunused, -⟩ := decode_eq_ok_iff.1 h
    obtain ⟨r', hrow', hformat⟩ := exists_rowOf_opcodeOf i
    rw [← cmdOp_of_decode h, hrow] at hrow'
    obtain rfl := Option.some.inj hrow'
    exact ⟨i, cmdOp_of_decode h, hformat ▸ hunused⟩
  · rintro ⟨j, hop, hunused⟩
    obtain ⟨r, hrow, hformat⟩ := exists_rowOf_opcodeOf j
    exact ⟨_, decode_eq_ok_iff.2 ⟨r, hop ▸ hrow, hformat ▸ hunused, rfl⟩⟩

/-! ## Reserved opcodes -/

/-- The opcodes without a row, by value (rule R78). -/
theorem rowOf_eq_none_iff {op : Byte} : rowOf op = none ↔ op.toNat = 0x00 ∨ (0x06 ≤ op.toNat ∧ op.toNat ≤ 0x0F) ∨
    (0x15 ≤ op.toNat ∧ op.toNat ≤ 0x1F) ∨ (0x26 ≤ op.toNat ∧ op.toNat ≤ 0x2F) ∨ 0x33 ≤ op.toNat := by
  have hassigned : rowOf op = none ↔ op.toNat ∉ opcodeMap.map (fun r => r.op.toNat) := by
    simp [rowOf, BitVec.toNat_inj]
  rw [hassigned]
  simp only [opcodeMap, List.map_cons, List.map_nil, List.mem_cons, List.not_mem_nil, or_false, BitVec.reduceToNat]
  omega

end Sys2Proof

namespace Sys2Proof.Proofs

/-- Settles O1: a command's word has the opcode of the command's row, and the row's command on the word's fields is the
command. -/
theorem decodeOfEncodeIsTheCommand : Obligations.DecodeOfEncodeIsTheCommand := decode_encode

/-- Settles O2: a legal word has 0x00 in every field its row does not use, so the encoder puts all four fields back. -/
theorem legalWordIsTheEncodingOfItsCommand : Obligations.LegalWordIsTheEncodingOfItsCommand := fun _ _ =>
  encode_of_decode

/-- Settles O3: to match a mask is to have the opcode and 0x00 in the unused fields, which is the decoder's test. -/
theorem legalWordsAreThoseThatMatchAMask : Obligations.LegalWordsAreThoseThatMatchAMask := by
  intro w
  simp only [and_mask_iff]
  refine ⟨exists_decode_iff, fun i j hi ⟨hop, _⟩ => ?same⟩
  case same =>
    have hopcode : opcodeOf i = opcodeOf j := (cmdOp_of_decode hi).symm.trans hop
    exact ⟨hopcode, format_eq_of_opcodeOf_eq hopcode⟩

/-- Settles O4: the decoder rejects a word for its opcode exactly when the map has no row for it. -/
theorem reservedOpcodesAreRejected : Obligations.ReservedOpcodesAreRejected := fun _ =>
  decode_eq_reservedOpcode_iff.trans rowOf_eq_none_iff

/-- Settles O6: each word is computed. -/
theorem specExampleWordsDecode : Obligations.SpecExampleWordsDecode :=
  ⟨rfl, rfl, rfl, rfl, rfl, rfl, rfl, rfl, rfl, rfl, rfl⟩

end Sys2Proof.Proofs
end

section
/-! The assembler (30_encoding.md rules R80, R81). A well-formed line names a row of the opcode map and has one number for
each operand field of the row's format; the command is what the row makes of them. -/

namespace Sys2Proof.Machine

/-- The row of a mnemonic, if there is one (rules R76, R81). -/
def rowNamed (m : String) : Option OpRow := opcodeMap.find? (fun r => r.mnemonic == m)

/-- The mnemonics that exist are those of the rows, each with its row's format. -/
theorem mnemonicFormat_eq (m : String) : mnemonicFormat m = (rowNamed m).map (fun r => r.form.format) := by
  unfold mnemonicFormat
  split
  case h_20 =>
    have hnone : rowNamed m = none := by
      refine List.find?_eq_none.2 fun r hr hm => ?_
      obtain rfl := beq_iff_eq.1 hm
      fin_cases hr <;> contradiction
    rw [hnone]
    rfl
  all_goals rfl

theorem rowNamed_mnemonic {r : OpRow} (h : r ∈ opcodeMap) : rowNamed r.mnemonic = some r := by
  fin_cases h <;> rfl

theorem arity_le_three (f : Format) : f.arity ≤ 3 := by
  cases f <;> decide

/-- A list of at most three numbers is the beginning of one of three. -/
theorem exists_eq_take : ∀ {l : List Nat}, l.length ≤ 3 → ∃ a b c, l = [a, b, c].take l.length
  | [], _ => ⟨0, 0, 0, rfl⟩
  | [a], _ => ⟨a, 0, 0, rfl⟩
  | [a, b], _ => ⟨a, b, 0, rfl⟩
  | [a, b, c], _ => ⟨a, b, c, rfl⟩
  | _ :: _ :: _ :: _ :: l, h => by simp only [List.length_cons] at h; omega

theorem wellFormed_iff {l : AsmLine} : l.wellFormed = true ↔
    ∃ r, rowNamed l.mnemonic = some r ∧ l.operands.length = r.form.format.arity ∧ ∀ n ∈ l.operands, n ≤ 255 := by
  cases h : rowNamed l.mnemonic <;> simp [AsmLine.wellFormed, mnemonicFormat_eq, h]

/-- A line with a row's mnemonic and as many operands as its format has fields, none above 255, stands for what the row
makes of them. -/
theorem assembleLine_of_row {l : AsmLine} {r : OpRow} (hrow : rowNamed l.mnemonic = some r) {a b c : Nat}
    (hop : l.operands = [a, b, c].take r.form.format.arity) (hbound : ∀ n ∈ l.operands, n ≤ 255) :
    assembleLine l = some (r.form.command (.ofNat 8 a) (.ofNat 8 b) (.ofNat 8 c)) := by
  have hlength : l.operands.length = r.form.format.arity := by
    rw [hop, List.length_take_of_le (arity_le_three _)]
  rw [assembleLine, if_pos (wellFormed_iff.2 ⟨r, hrow, hlength, hbound⟩), ← rowNamed, hrow, hop]
  cases hr : r.form <;> rw [Option.map_some, hr] <;> rfl

end Sys2Proof.Machine

namespace Sys2Proof.Proofs

open Sys2Proof.Machine

theorem assembleLine_isSome (l : AsmLine) : (assembleLine l).isSome = l.wellFormed := by
  cases hwf : l.wellFormed with
  | false => simp [assembleLine, hwf]
  | true =>
    obtain ⟨r, hrow, hlength, hbound⟩ := wellFormed_iff.1 hwf
    obtain ⟨a, b, c, hop⟩ := exists_eq_take (hlength ▸ arity_le_three _)
    rw [assembleLine_of_row hrow (hlength ▸ hop) hbound, Option.isSome_some]

theorem exists_assembleLine (i : Instr) : ∃ l, assembleLine l = some i := by
  obtain ⟨r, a, b, c, -, hrow, -, rfl⟩ := exists_row_and_fields i
  have hbound : ∀ n ∈ [a, b, c].map BitVec.toNat, n ≤ 255 := fun n hn => by
    obtain ⟨byte, -, rfl⟩ := List.mem_map.1 hn
    omega
  refine ⟨⟨r.mnemonic, ([a, b, c].map BitVec.toNat).take r.form.format.arity⟩, ?_⟩
  rw [assembleLine_of_row (rowNamed_mnemonic (mem_opcodeMap_of_rowOf hrow).1) rfl
    fun n hn => hbound n (List.mem_of_mem_take hn)]
  simp only [BitVec.ofNat_toNat, BitVec.setWidth_eq]

/-- Settles O7: a line is refused exactly where it has no row or not the row's operands; a command's line is its row's
mnemonic and the operand fields its format uses; the three lines are computed. -/
theorem assemblerAcceptsExactlyWellFormedLines : Obligations.AssemblerAcceptsExactlyWellFormedLines :=
  ⟨assembleLine_isSome, exists_assembleLine, by decide +kernel, by decide +kernel, by decide +kernel⟩

end Sys2Proof.Proofs
end

section
/-! The machine's step and its runs (20_memory.md rules R56, R57; 70_reset_and_hazards.md rules R190 to R192, R203):
everything a step can do, said once, and the run of a program as the unit's own run. -/

namespace Sys2Proof.Proofs

open Sys2Proof.Machine

/-! ## One step -/

theorem step_idle {s : State} (h : s.inbox = []) : step s = .next s := by
  simp only [step, unitStep, takeEvent, h]

/-- The two events that reset the unit, `abandon` without a response (rule R190). -/
theorem step_reset {s : State} {e : HostEvent} {es : List HostEvent} (h : s.inbox = e :: es)
    (he : e = .reset ∨ ∃ w, e = .abandon w) : step s = .next (resetUnit { s with inbox := es }) := by
  rw [step_eq_serve h]
  obtain rfl | ⟨w, rfl⟩ := he <;> rfl

/-- EVERYTHING A STEP CAN DO. -/
theorem step_cases {s t : State} (h : step s = .next t) :
    (s.inbox = [] ∧ t = s) ∨
    (∃ w es, s.inbox = .command w :: es ∧ t = deliver (gfauStep w s.toGfau s.draws) { s with inbox := es }) ∨
    (∃ e es, s.inbox = e :: es ∧ (e = .reset ∨ ∃ w, e = .abandon w) ∧ t = resetUnit { s with inbox := es }) := by
  match hin : s.inbox with
  | [] => exact .inl ⟨rfl, by simpa [step_idle hin] using h.symm⟩
  | .command w :: es => exact .inr (.inl ⟨w, es, rfl, by simpa [step_command hin] using h.symm⟩)
  | .reset :: es => exact .inr (.inr ⟨_, es, rfl, .inl rfl, by simpa [step_reset hin] using h.symm⟩)
  | .abandon w :: es => exact .inr (.inr ⟨_, es, rfl, .inr ⟨w, rfl⟩, by simpa [step_reset hin] using h.symm⟩)

/-- What the machine is after a step on a command word. -/
theorem eq_deliver_of_step {s t : State} {w : CmdWord} {es : List HostEvent} (hin : s.inbox = .command w :: es)
    (h : step s = .next t) : t = deliver (gfauStep w s.toGfau s.draws) { s with inbox := es } := by
  simpa [step_command hin] using h.symm

/-! ## Runs -/

/-- One command word more (rule R56). -/
theorem run_command {s : State} {w : CmdWord} {es : List HostEvent} (h : s.inbox = .command w :: es) (n : Nat) :
    Sys2Proof.core.run (n + 1) s =
      Sys2Proof.core.run n (deliver (gfauStep w s.toGfau s.draws) { s with inbox := es }) :=
  run_succ_of_next (step_command h) n

/-- The machine as the unit's own run of a program leaves it, `es` still to come. -/
def afterWords (ws : List CmdWord) (s : State) (es : List HostEvent) : State where
  toGfau := (runWords ws s.toGfau s.draws).1
  inbox := es
  outbox := s.outbox ++ (runWords ws s.toGfau s.draws).2.1
  draws := (runWords ws s.toGfau s.draws).2.2

theorem run_words (ws : List CmdWord) (es : List HostEvent) {s : State}
    (h : s.inbox = ws.map HostEvent.command ++ es) : Sys2Proof.core.run ws.length s = .next (afterWords ws s es) := by
  induction ws generalizing s with
  | nil =>
    have hrun : Sys2Proof.core.run 0 s = .next s := rfl
    simp only [List.map_nil, List.nil_append] at h
    simp [hrun, afterWords, runWords, ← h]
  | cons w ws ih =>
    rw [List.length_cons, run_command h, ih rfl]
    simp [afterWords, runWords]

/-- Which events the host is owed a response for (rule R57). -/
def isCommand : HostEvent → Bool
  | .command _ => true
  | .reset => false
  | .abandon _ => false

/-- One step serves one event, and answers it exactly if it is a command word. -/
theorem step_serves_event {s : State} {e : HostEvent} {es : List HostEvent} (h : s.inbox = e :: es) :
    ∃ t rs, step s = .next t ∧ t.inbox = es ∧ t.outbox = s.outbox ++ rs ∧ rs.length = ([e].filter isCommand).length := by
  cases e with
  | command w => exact ⟨_, [_], step_command h, rfl, rfl, rfl⟩
  | reset => exact ⟨_, [], step_reset h (.inl rfl), rfl, (List.append_nil _).symm, rfl⟩
  | abandon w => exact ⟨_, [], step_reset h (.inr ⟨w, rfl⟩), rfl, (List.append_nil _).symm, rfl⟩

theorem run_serves_inbox (es : List HostEvent) {s : State} (h : s.inbox = es) :
    ∃ t rs, Sys2Proof.core.run es.length s = .next t ∧ t.inbox = [] ∧ t.outbox = s.outbox ++ rs ∧
      rs.length = (es.filter isCommand).length := by
  induction es generalizing s with
  | nil => exact ⟨s, [], rfl, h, (List.append_nil _).symm, rfl⟩
  | cons e es ih =>
    obtain ⟨t, rs, hstep, hin, hout, hlen⟩ := step_serves_event h
    obtain ⟨t', rs', hrun, hin', hout', hlen'⟩ := ih hin
    refine ⟨t', rs ++ rs', (run_succ_of_next hstep _).trans hrun, hin', by rw [hout', hout, List.append_assoc], ?_⟩
    rw [List.length_append, hlen, hlen', ← List.length_append, ← List.filter_append]
    rfl

/-! ## The obligations -/

/-- Settles O44: the step delivers the unit's one reply. -/
theorem everyCommandWordGetsOneResponse : Obligations.EveryCommandWordGetsOneResponse := fun _ _ _ h =>
  ⟨_, _, step_command h, rfl, rfl⟩

/-- Settles O45: by induction on the inbox, each step serving its first event. -/
theorem runServesEverythingTheHostIssues : Obligations.RunServesEverythingTheHostIssues := by
  intro s
  obtain ⟨t, rs, hrun, hin, hout, hlen⟩ := run_serves_inbox s.inbox rfl
  refine ⟨t, rs, hrun, hin, hout, hlen.trans ?_⟩
  congr 2
  funext e
  cases e <;> rfl

/-- Settles O50: `deliver` takes the unit's reply apart into exactly these fields. -/
theorem stepDeliversTheUnitsOwnStep : Obligations.StepDeliversTheUnitsOwnStep := fun _ _ _ => step_command

/-- Settles O51: by induction on the program, each step delivering the unit's own. -/
theorem programRunIsTheUnitsOwnRun : Obligations.ProgramRunIsTheUnitsOwnRun := fun ws es _ => run_words ws es

/-- Settles O40: the reset state is written out with these values. -/
theorem resetStateHasZeroRegistersAndUnwrittenMemories :
    Obligations.ResetStateHasZeroRegistersAndUnwrittenMemories :=
  ⟨rfl, rfl, rfl, fun sp _ => by cases sp <;> rfl, rfl, rfl⟩

/-- Settles O41: the word is decoded and its command executed once the word is out of the inbox. -/
theorem stepRunsTheDecodedCommand : Obligations.StepRunsTheDecodedCommand := by
  intro s w es i hin hw
  rw [step_command hin, gfauStep_of_ok hw, exec_eq_answer]
  rfl

/-- Settles O42: no event is taken. -/
theorem idleUnitKeepsItsState : Obligations.IdleUnitKeepsItsState := fun _ => step_idle

/-- Settles O43: both events leave the reset state of the unit and nothing in the outbox. -/
theorem resetClearsRegistersAndAbandonsTheCommand : Obligations.ResetClearsRegistersAndAbandonsTheCommand :=
  fun _ _ _ hin he => ⟨_, step_reset hin he, rfl, rfl, rfl, fun sp _ => by cases sp <;> rfl, rfl, rfl⟩

end Sys2Proof.Proofs
end

section
/-! Faults and the sticky flags (10_state.md rule R30, 60_exceptions.md rules R177 to R179). The unit's step changes
`STATUS` by the flag of the fault it responds with, and by nothing else unless the command is `CLRS`. -/

namespace Sys2Proof.Proofs

open Sys2Proof.Machine

/-! ## The unit's step -/

/-- A fault changes no state of the unit but its flag (rule R178). -/
theorem gfauStep_unit_of_fault {w : CmdWord} {u : Gfau} {k : Nat} {c : FaultCode}
    (h : (gfauStep w u k).response = .fault c) : (gfauStep w u k).unit = setFlag c u := by
  cases hw : decode w with
  | error why =>
    rw [gfauStep_of_error hw] at h ⊢
    obtain rfl : FaultCode.illegal = c := by simpa using h
    rfl
  | ok i =>
    rw [gfauStep_of_ok hw] at h ⊢
    cases c with
    | div0 => exact commandReply_unit_of_div0 h
    | illegal => exact absurd h (commandReply_response_ne_illegal i u k)

/-- A word ends in a fault, of which only the flag stays, or is a command that ends OK. -/
theorem gfauStep_cases (w : CmdWord) (u : Gfau) (k : Nat) :
    (∃ c, (gfauStep w u k).response = .fault c ∧ (gfauStep w u k).unit = setFlag c u) ∨
    (∃ i v, decode w = .ok i ∧ (gfauStep w u k).response = .ok v ∧ CommandEffect i u (gfauStep w u k)) := by
  cases hr : (gfauStep w u k).response with
  | fault c => exact .inl ⟨c, rfl, gfauStep_unit_of_fault hr⟩
  | ok v =>
    cases hw : decode w with
    | error why => simp [gfauStep_of_error hw] at hr
    | ok i => exact .inr ⟨i, v, rfl, rfl, gfauStep_of_ok hw u k ▸ commandReply_effect i u k⟩

/-! ## The flags -/

/-- The bit of `STATUS` that is a fault's flag (rule R30). -/
def flagIndex : FaultCode → Nat
  | .div0 => 0
  | .illegal => 1

/-- The flag of a fault is set: `dz` and `il` at once. -/
def flagSet (c : FaultCode) (u : Gfau) : Bool := u.status.getLsbD (flagIndex c)

theorem dz_eq_flagSet (u : Gfau) : dz u = flagSet .div0 u := rfl

theorem il_eq_flagSet (u : Gfau) : il u = flagSet .illegal u := rfl

/-- The flag a response stands for: a fault's, or none. -/
def flagRaised : Response → Byte
  | .ok _ => 0x00#8
  | .fault c => flagOf c

theorem getLsbD_flagRaised (c : FaultCode) (r : Response) :
    (flagRaised r).getLsbD (flagIndex c) = true ↔ r = .fault c := by
  cases r with
  | ok v => simp [flagRaised]
  | fault c' => cases c <;> cases c' <;> decide

/-- Rule R30: any word but `CLRS` sets the flag of its fault and keeps the others. -/
theorem gfauStep_status {w : CmdWord} (h : decode w ≠ .ok .clrs) (u : Gfau) (k : Nat) :
    (gfauStep w u k).unit.status = u.status ||| flagRaised (gfauStep w u k).response := by
  obtain ⟨c, hresponse, hunit⟩ | ⟨i, v, hw, hresponse, heffect⟩ := gfauStep_cases w u k
  · rw [hunit, hresponse]
    rfl
  · cases heffect with
    | div0 _ response => simp [hresponse] at response
    | ok _ _ _ _ _ _ status =>
      obtain ⟨hstatus, -⟩ | ⟨rfl, -⟩ := status
      · rw [hstatus, hresponse, flagRaised, BitVec.or_zero]
      · exact absurd hw h

theorem gfauStep_flagSet {w : CmdWord} (h : decode w ≠ .ok .clrs) (c : FaultCode) (u : Gfau) (k : Nat) :
    flagSet c (gfauStep w u k).unit = true ↔ flagSet c u = true ∨ (gfauStep w u k).response = .fault c := by
  rw [flagSet, gfauStep_status h, BitVec.getLsbD_or, Bool.or_eq_true, getLsbD_flagRaised, flagSet]

/-- Rule R161. -/
theorem gfauStep_clrs {w : CmdWord} (h : decode w = .ok .clrs) (u : Gfau) (k : Nat) :
    (gfauStep w u k).unit = clearStatus u := by
  rw [gfauStep_of_ok h]
  rfl

/-! ## Programs without `CLRS` -/

theorem runWords_flagSet {ws : List CmdWord} (hws : ∀ w ∈ ws, decode w ≠ .ok .clrs) (c : FaultCode) (u : Gfau)
    (k : Nat) : flagSet c (runWords ws u k).1 = true ↔ flagSet c u = true ∨ .fault c ∈ (runWords ws u k).2.1 := by
  induction ws generalizing u k with
  | nil => simp [runWords]
  | cons w ws ih =>
    obtain ⟨hw, hws⟩ := List.forall_mem_cons.1 hws
    rw [runWords, ih hws, gfauStep_flagSet hw, List.mem_cons, or_assoc, eq_comm (a := Response.fault c)]

/-- Clear flags at the end mean that no response was a fault. -/
theorem allOk_runWords {ws : List CmdWord} (hws : ∀ w ∈ ws, decode w ≠ .ok .clrs) {u : Gfau} {k : Nat}
    (hclear : ∀ c, flagSet c (runWords ws u k).1 = false) : AllOk (runWords ws u k).2.1 := by
  intro r hr
  cases r with
  | ok v => rfl
  | fault c => exact absurd ((runWords_flagSet hws c u k).2 (.inr hr)) (by simp [hclear c])

/-! ## A word that faulted, again -/

/-- Rule R179: `DIV0` has its cause in the word and in state the flag is no part of. -/
theorem gfauStep_fault_again {w : CmdWord} {u : Gfau} {k : Nat} {c : FaultCode} {x : Nat → Byte}
    (hx : ∀ v, decode w = .ok (.interp v) → ∀ j ≤ u.plast.toNat, memLoad u.px j = some (x j))
    (h : (gfauStep w u k).response = .fault c) (k' : Nat) :
    (gfauStep w (setFlag c u) k').response = .fault c := by
  cases hw : decode w with
  | error why =>
    rw [gfauStep_of_error hw] at h ⊢
    exact h
  | ok i =>
    rw [gfauStep_of_ok hw] at h ⊢
    have hxi : ∀ v, i = .interp v → ∀ j ≤ u.plast.toNat, memLoad u.px j = some (x j) := fun v hi => hx v (hi ▸ hw)
    cases c with
    | illegal => exact absurd h (commandReply_response_ne_illegal i u k)
    | div0 =>
      rw [commandReply_response_eq_div0_iff hxi] at h
      exact (commandReply_response_eq_div0_iff (u := setFlag .div0 u) hxi k').2 h

/-! ## Commands whatever `STATUS` holds -/

/-- Two replies that differ at most in the value of `STATUS` in the unit they hand back. -/
def Reply.SameButStatus (r r' : Reply) : Prop :=
  r'.response = r.response ∧ r'.draws = r.draws ∧ { r'.unit with status := r.unit.status } = r.unit

theorem replyOrDiv0_sameButStatus (q : Option Byte) (u : Gfau) (st : Byte) (k : Nat) :
    Reply.SameButStatus (replyOrDiv0 q u k) (replyOrDiv0 q { u with status := st } k) := by
  cases q <;> exact ⟨rfl, rfl, rfl⟩

/-- No command but `RDST` reads `STATUS` (rules R30, R179). -/
theorem commandReply_sameButStatus {i : Instr} (hi : i ≠ .rdst) (u : Gfau) (st : Byte) (k : Nat) :
    Reply.SameButStatus (commandReply i u k) (commandReply i { u with status := st } k) := by
  cases i with
  | gdiv a b => exact replyOrDiv0_sameButStatus (gdiv a b) u st k
  | ginv a => exact replyOrDiv0_sameButStatus (ginv a) u st k
  | interp v => exact replyOrDiv0_sameButStatus (interpolate v u k).1 u st (interpolate v u k).2
  | rdst => exact absurd rfl hi
  | _ => exact ⟨rfl, rfl, rfl⟩

theorem deliver_sameButStatus {r r' : Reply} (h : Reply.SameButStatus r r') (s : State) (st : Byte) :
    { deliver r' { s with status := st } with status := (deliver r s).status } = deliver r s := by
  obtain ⟨hresponse, hdraws, hunit⟩ := h
  simp only [deliver, hresponse, hdraws, hunit]

/-! ## The obligations -/

/-- Settles O34: the response is the fault, so the unit has but its flag changed. -/
theorem faultsArePrecise : Obligations.FaultsArePrecise := by
  intro s t w es c hin hstep hout
  obtain rfl := eq_deliver_of_step hin hstep
  have hresponse : (gfauStep w s.toGfau s.draws).response = .fault c := by simpa using hout
  rw [deliver, gfauStep_unit_of_fault hresponse, hresponse]
  rfl

/-- Settles O35: the word does not decode, and nothing else is looked at. -/
theorem illegalComesBeforeDiv0 : Obligations.IllegalComesBeforeDiv0 := by
  intro s es hin
  have hw : decode 0x04360001#32 = .error .unusedFieldNonzero := rfl
  rw [step_command hin, gfauStep_of_error hw]
  rfl

/-- Settles O36: any word but `CLRS` adds the flag of its fault to `STATUS`. -/
theorem statusFlagsAreSticky : Obligations.StatusFlagsAreSticky := by
  intro s t w es hin hstep
  obtain rfl := eq_deliver_of_step hin hstep
  refine ⟨fun hw => ⟨?dz, ?il⟩, fun hw => ?clrs⟩
  case dz => simpa [dz_eq_flagSet] using gfauStep_flagSet hw .div0 s.toGfau s.draws
  case il => simpa [il_eq_flagSet] using gfauStep_flagSet hw .illegal s.toGfau s.draws
  case clrs =>
    rw [deliver_toGfau, gfauStep_clrs hw]
    exact ⟨BitVec.getLsbD_zero, BitVec.getLsbD_zero⟩

/-- Settles O37: the run is the unit's own, in which a flag is set as soon as some response is its fault. -/
theorem clearStatusMeansNoCommandFaulted : Obligations.ClearStatusMeansNoCommandFaulted := by
  intro ws s t rs hin hws hrun hout hdz hil
  rw [run_words ws [] (by rw [hin, List.append_nil])] at hrun
  cases hrun
  obtain rfl := List.append_cancel_left hout
  refine allOk_runWords hws fun c => ?clear
  cases c with
  | div0 => exact hdz
  | illegal => exact hil

/-- Settles O38: the fault left all but its flag, on which no fault depends. -/
theorem faultingWordFaultsAgain : Obligations.FaultingWordFaultsAgain := by
  intro s t w es c x hx hin hstep hout
  obtain rfl := eq_deliver_of_step hin hstep
  have hresponse : (gfauStep w s.toGfau s.draws).response = .fault c := by simpa using hout
  refine ⟨_, step_command rfl, ?_⟩
  rw [deliver_outbox, deliver_toGfau, gfauStep_unit_of_fault hresponse, gfauStep_fault_again hx hresponse]

/-- Settles O39: the two replies differ at most in `STATUS`; `RDST` is the one command that reads it, and hands
back the unit as it was. -/
theorem noResultDependsOnStatus : Obligations.NoResultDependsOnStatus := by
  intro i s st
  refine ⟨_, _, exec_eq_next_iff.2 rfl, exec_eq_next_iff.2 rfl, fun hi => ?other, ?rdst⟩
  case other => exact deliver_sameButStatus (commandReply_sameButStatus hi s.toGfau st s.draws) s st
  case rdst =>
    rintro rfl
    rfl

end Sys2Proof.Proofs
end

section
/-! What a step leaves: the invariant, and every piece of state that no command named for it writes (10_state.md rules
R20, R24 to R30; 20_memory.md rule R56). All of it is read off `commandReply_effect`. -/

namespace Sys2Proof.Proofs

open Sys2Proof.Machine

/-! ## The invariant -/

/-- The invariant is about the unit, not about the port. -/
theorem inv_of_toGfau_eq {s t : State} (hs : Inv s) (h : t.toGfau = s.toGfau) : Inv t := by
  cases s
  cases t
  cases h
  exact ⟨hs.coefWf, hs.pxWf, hs.pyWf, hs.paired, hs.reserved⟩

theorem inv_reset : Inv State.reset where
  coefWf := reset_wf.1
  pxWf := reset_wf.2.1
  pyWf := reset_wf.2.2
  paired := fun _ => rfl
  reserved := rfl

/-- A flag is no reserved bit (rule R30). -/
theorem reserved_or_flagOf {st : Byte} (h : st &&& 0xFC#8 = 0x00#8) (c : FaultCode) :
    (st ||| flagOf c) &&& 0xFC#8 = 0x00#8 := by
  have hflag : flagOf c &&& 0xFC#8 = 0x00#8 := by cases c <;> rfl
  rw [BitVec.and_comm, BitVec.and_or_distrib_left, BitVec.and_comm _ st, h, BitVec.and_comm, hflag, BitVec.or_zero]

theorem inv_deliver_of_setFlag {s : State} (hs : Inv s) {c : FaultCode} {r : Reply} (h : r.unit = setFlag c s.toGfau) :
    Inv (deliver r s) :=
  inv_of_toGfau_eq (s := { s with status := s.status ||| flagOf c })
    ⟨hs.coefWf, hs.pxWf, hs.pyWf, hs.paired, reserved_or_flagOf hs.reserved c⟩ h

/-- The same entry stored in two memories: it is written in both (rules R25, R54). -/
theorem isSome_memLoad_memStore {mx my : Memory} {i : Nat} (h : (memLoad mx i).isSome = (memLoad my i).isSome)
    (j : Nat) (x y : Byte) : (memLoad (memStore mx j x) i).isSome = (memLoad (memStore my j y) i).isSome := by
  rw [memLoad_memStore, memLoad_memStore]
  split
  · rfl
  · exact h

theorem inv_deliver_of_effect {s : State} (hs : Inv s) {i : Instr} {r : Reply} (h : CommandEffect i s.toGfau r) :
    Inv (deliver r s) := by
  cases h with
  | div0 _ _ unit => exact inv_deliver_of_setFlag hs unit
  | ok v _ coef points _ _ status =>
    refine ⟨?coefWf, ?pxWf, ?pyWf, fun n => ?paired, ?reserved⟩
    case coefWf =>
      obtain h | ⟨j, b, -, h⟩ := coef <;> rw [deliver_toGfau, h]
      · exact hs.coefWf
      · exact memStore_wf hs.coefWf j.isLt b
    case pxWf =>
      obtain ⟨h, -⟩ | ⟨j, x, y, -, h, -⟩ := points <;> rw [deliver_toGfau, h]
      · exact hs.pxWf
      · exact memStore_wf hs.pxWf j.isLt x
    case pyWf =>
      obtain ⟨-, h⟩ | ⟨j, x, y, -, -, h⟩ := points <;> rw [deliver_toGfau, h]
      · exact hs.pyWf
      · exact memStore_wf hs.pyWf j.isLt y
    case paired =>
      simp only [stored, memOf_px, memOf_py, deliver_toGfau]
      obtain ⟨hx, hy⟩ | ⟨j, x, y, -, hx, hy⟩ := points <;> rw [hx, hy]
      · exact hs.paired n
      · exact isSome_memLoad_memStore (hs.paired n) _ x y
    case reserved =>
      obtain ⟨h, -⟩ | ⟨-, h⟩ := status <;> rw [deliver_toGfau, h]
      · exact hs.reserved
      · rfl

theorem inv_deliver_gfauStep {s : State} (hs : Inv s) (w : CmdWord) (k : Nat) :
    Inv (deliver (gfauStep w s.toGfau k) s) := by
  obtain ⟨c, -, hunit⟩ | ⟨i, v, -, -, heffect⟩ := gfauStep_cases w s.toGfau k
  · exact inv_deliver_of_setFlag hs hunit
  · exact inv_deliver_of_effect hs heffect

/-! ## A stored entry -/

/-- A command that writes entry `j` of a space (rules R50, R54). -/
def Writes (sp : Space) (j : Byte) (i : Instr) : Prop :=
  match sp with
  | .coef => ∃ v, i = .ldc j v
  | .px | .py => ∃ x y, i = .ldp j x y

theorem memLoad_memStore_of_ne {m : Memory} {i j : Byte} (h : j ≠ i) (v : Byte) :
    memLoad (memStore m i.toNat v) j.toNat = memLoad m j.toNat := by
  rw [memLoad_memStore, if_neg (mt BitVec.toNat_inj.1 h)]

theorem stored_of_effect {i : Instr} {sp : Space} {j : Byte} (hi : ¬ Writes sp j i) {u : Gfau} {r : Reply}
    (h : CommandEffect i u r) : stored sp r.unit j = stored sp u j := by
  cases h with
  | div0 _ _ unit =>
    rw [unit]
    cases sp <;> rfl
  | ok v _ coef points =>
    cases sp with
    | coef =>
      obtain h | ⟨n, b, rfl, h⟩ := coef <;> simp only [stored, memOf_coef, h]
      exact memLoad_memStore_of_ne (fun hj => hi ⟨b, by rw [hj]⟩) b
    | px =>
      obtain ⟨h, -⟩ | ⟨n, x, y, rfl, h, -⟩ := points <;> simp only [stored, memOf_px, h]
      exact memLoad_memStore_of_ne (fun hj => hi ⟨x, y, by rw [hj]⟩) x
    | py =>
      obtain ⟨-, h⟩ | ⟨n, x, y, rfl, -, h⟩ := points <;> simp only [stored, memOf_py, h]
      exact memLoad_memStore_of_ne (fun hj => hi ⟨x, y, by rw [hj]⟩) y

theorem stored_runWords {sp : Space} {j : Byte} {cs : List Instr} (h : ∀ i ∈ cs, ¬ Writes sp j i) (u : Gfau) (k : Nat) :
    stored sp (runWords (cs.map encode) u k).1 j = stored sp u j := by
  induction cs generalizing u k with
  | nil => rfl
  | cons i cs ih =>
    obtain ⟨hi, hcs⟩ := List.forall_mem_cons.1 h
    rw [List.map_cons, runWords, ih hcs, gfauStep_of_ok (decode_encode i)]
    exact stored_of_effect hi (commandReply_effect i u k)

/-! ## The obligations -/

/-- Settles O49: a step leaves the unit alone, resets it, or delivers a reply, whose effect on each piece of state
is known. -/
theorem everyStepKeepsTheInvariant : Obligations.EveryStepKeepsTheInvariant := by
  intro s t hs hstep
  obtain ⟨-, rfl⟩ | ⟨w, es, -, rfl⟩ | ⟨e, es, -, -, rfl⟩ := step_cases hstep
  · exact hs
  · exact inv_of_toGfau_eq (inv_deliver_gfauStep hs w s.draws) rfl
  · exact inv_of_toGfau_eq inv_reset rfl

/-- Settles O48: no entry of any memory is written, and `STATUS` is 0x00. -/
theorem invariantHoldsAtReset : Obligations.InvariantHoldsAtReset := inv_reset

/-- Settles O46: a fault changes `STATUS` only, and a command that ends OK what `CommandEffect` names it for. -/
theorem onlyTheNamedCommandsWriteEachPieceOfState : Obligations.OnlyTheNamedCommandsWriteEachPieceOfState := by
  intro s t w es hin hstep
  obtain rfl := eq_deliver_of_step hin hstep
  obtain ⟨c, hresponse, hunit⟩ | ⟨i, v, hw, hresponse, heffect⟩ := gfauStep_cases w s.toGfau s.draws
  · simp [hresponse, hunit]
  · cases heffect with
    | div0 _ response => simp [hresponse] at response
    | ok _ _ coef points cdeg plast status =>
      refine ⟨fun h => ?coef, fun h => ?points, fun h => ?cdeg, fun h => ?plast, fun h => ?status⟩
      case coef =>
        obtain ⟨j, b, rfl, -⟩ := coef.resolve_left h
        exact ⟨j, b, hw⟩
      case points =>
        obtain ⟨j, x, y, rfl, -⟩ := points.resolve_left (not_and_or.2 h)
        exact ⟨j, x, y, hw⟩
      case cdeg =>
        obtain ⟨d, rfl, -⟩ := cdeg.resolve_left h
        exact ⟨d, hw⟩
      case plast =>
        obtain ⟨n, rfl, -⟩ := plast.resolve_left h
        exact ⟨n, hw⟩
      case status =>
        obtain ⟨rfl, -⟩ := status.resolve_left fun hsame => h hsame.1
        exact .inl hw

/-- Settles O47: the run is the unit's own, and no command of it writes the entry. -/
theorem storedEntrySurvivesCommandsThatDoNotWriteIt : Obligations.StoredEntrySurvivesCommandsThatDoNotWriteIt := by
  intro cs s t sp j b hstored hin hcoef hpoints hrun
  have hwrites : ∀ i ∈ cs, ¬ Writes sp j i := by
    intro i hi hwrite
    cases sp with
    | coef => obtain ⟨v, rfl⟩ := hwrite; exact hcoef rfl v hi
    | px => obtain ⟨x, y, rfl⟩ := hwrite; exact hpoints (by decide) x y hi
    | py => obtain ⟨x, y, rfl⟩ := hwrite; exact hpoints (by decide) x y hi
  have hwords := run_words (cs.map encode) [] (s := s) (by rw [hin, List.map_map, List.append_nil]; rfl)
  rw [List.length_map, hrun] at hwords
  cases hwords
  exact (stored_runWords hwrites s.toGfau s.draws).trans hstored

end Sys2Proof.Proofs
end

section
/-! The field (41_field.md rules R102, R105, R111): the laws of the five functions, that any generator's tables compute
them, and the field they make of the 256 bytes. -/

namespace Sys2Proof.Proofs

open Sys2Proof.Machine

/-! ## The laws of the product -/

theorem gmul_comm (a b : Byte) : gmul a b = gmul b a := by
  rw [gmul_eq_gmulRef, gmul_eq_gmulRef, gmulRef_comm]

theorem gmul_assoc (a b c : Byte) : gmul (gmul a b) c = gmul a (gmul b c) := by
  simp only [gmul_eq_gmulRef]
  rw [gmulRef_comm a b, gmulRef_right_comm, gmulRef_comm]

theorem gmul_one_left (a : Byte) : gmul 0x01#8 a = a := by
  rw [gmul_eq_gmulRef, gmulRef_one_left]

theorem gmul_one_right (a : Byte) : gmul a 0x01#8 = a := by
  rw [gmul_comm, gmul_one_left]

theorem gmul_gadd (a b c : Byte) : gmul a (gadd b c) = gadd (gmul a b) (gmul a c) := by
  rw [gmul_comm, gmul_comm a b, gmul_comm a c]
  simp only [gmul_eq_gmulRef, gadd, gmulRef_xor_left]

theorem gmul_eq_zero {a b : Byte} (h : gmul a b = 0x00#8) : a = 0x00#8 ∨ b = 0x00#8 := by
  by_contra hne
  obtain ⟨ha, hb⟩ := not_or.1 hne
  rw [gmul_eq_gmulRef, ← gmulRef_zero_left b] at h
  exact ha (gmulRef_left_injective hb h)

/-! ## The laws of the quotient and of inversion -/

theorem gdiv_gmul (a : Byte) {b : Byte} (hb : b ≠ 0x00#8) : gdiv (gmul a b) b = some a := by
  rw [gmul_eq_gmulRef, gdiv_gmulRef a hb]

theorem exists_gdiv_eq (a : Byte) {b : Byte} (hb : b ≠ 0x00#8) : ∃ d, gdiv a b = some d ∧ gmul d b = a := by
  obtain ⟨d, rfl⟩ := exists_gmulRef_eq a hb
  exact ⟨d, gdiv_gmulRef d hb, gmul_eq_gmulRef d b⟩

theorem gdiv_self {a : Byte} (ha : a ≠ 0x00#8) : gdiv a a = some 0x01#8 := by
  simpa only [gmul_one_left] using gdiv_gmul 0x01#8 ha

theorem gdiv_one (a : Byte) : gdiv a 0x01#8 = some a := by
  simpa only [gmul_one_right] using gdiv_gmul a (b := 0x01#8) (by decide)

/-- A non-zero element has an inverse, and it is the inverse of its inverse. -/
theorem exists_ginv_eq {a : Byte} (ha : a ≠ 0x00#8) : ∃ d, ginv a = some d ∧ gmul a d = 0x01#8 ∧ ginv d = some a := by
  obtain ⟨d, hd, hprod⟩ := exists_gdiv_eq 0x01#8 ha
  have hprod' : gmul a d = 0x01#8 := by rw [gmul_comm, hprod]
  have hne : d ≠ 0x00#8 := by
    rintro rfl
    rw [gmul_zero_right] at hprod'
    exact absurd hprod' (by decide)
  refine ⟨d, hd, hprod', ?_⟩
  rw [ginv, ← hprod', gdiv_gmul a hne]

/-! ## Any generator's tables -/

section GeneratorTables

variable {g : Byte} {exp : Fin 255 → Byte} {log : Byte → Option (Fin 255)} (hone : exp 0 = 0x01#8)
  (hnext : ∀ k : Fin 255, exp (k + 1) = gmulRef (exp k) g)

include hone hnext

/-- The powers of any element multiply by adding their exponents. -/
theorem gmulRef_powers (k l : Fin 255) : gmulRef (exp k) (exp l) = exp (k + l) := by
  induction k using Fin.induction with
  | zero => rw [zero_add, hone, gmulRef_one_left]
  | succ k ih => rw [← Fin.coeSucc_eq_succ, hnext, gmulRef_right_comm, ih, ← hnext, add_right_comm]

variable (hall : ∀ a : Byte, a ≠ 0x00#8 → ∃ k, exp k = a) (hlog : ∀ k : Fin 255, log (exp k) = some k)
  (hzero : log 0x00#8 = none)

include hall hlog hzero

theorem tableMul_eq_gmul (a b : Byte) : tableMul exp log a b = gmul a b := by
  by_cases ha : a = 0x00#8
  · rw [ha, gmul_zero_left, tableMul, hzero]
  by_cases hb : b = 0x00#8
  · rw [hb, gmul_zero_right, tableMul, hzero]
    cases log a <;> rfl
  obtain ⟨k, rfl⟩ := hall a ha
  obtain ⟨l, rfl⟩ := hall b hb
  rw [gmul_eq_gmulRef, gmulRef_powers hone hnext]
  simp only [tableMul, hlog, logAdd_eq_add]

theorem tableDiv_eq_gdiv (a b : Byte) : tableDiv exp log a b = gdiv a b := by
  by_cases hb : b = 0x00#8
  · rw [hb, gdiv_zero_right, tableDiv, hzero]
  obtain ⟨l, rfl⟩ := hall b hb
  by_cases ha : a = 0x00#8
  · rw [ha, gdiv_zero_left hb, tableDiv, hzero, hlog]
  obtain ⟨k, rfl⟩ := hall a ha
  have hproduct : exp k = gmulRef (exp (k - l)) (exp l) := by
    rw [gmulRef_powers hone hnext, sub_add_cancel]
  rw [hproduct, gdiv_gmulRef _ hb, ← hproduct]
  simp only [tableDiv, hlog, logSub_eq_sub]

end GeneratorTables

/-! ## The field of 256 elements -/

/-- The bytes with the unit's sum, product and inverse: a field. Each element is its own negative. -/
abbrev byteField : Field Byte :=
  @Field.ofMinimalAxioms Byte ⟨gadd⟩ ⟨gmul⟩ ⟨id⟩ ⟨fun a => (ginv a).getD 0x00#8⟩ ⟨0x00#8⟩ ⟨0x01#8⟩
    BitVec.xor_assoc (fun _ => BitVec.zero_xor) (fun _ => BitVec.xor_self) gmul_assoc gmul_comm gmul_one_left
    (fun a ha => by
      obtain ⟨d, hd, hprod, -⟩ := exists_ginv_eq ha
      change gmul a ((ginv a).getD 0x00#8) = 0x01#8
      rw [hd, Option.getD_some, hprod])
    rfl gmul_gadd ⟨0x00#8, 0x01#8, by decide⟩

/-- `φ` reads the bytes as elements of a field, with the unit's sum and product as that field's. -/
structure ReadsAsField {F : Type} [Field F] (φ : Byte → F) : Prop where
  injective : Function.Injective φ
  zero : φ 0x00#8 = 0
  one : φ 0x01#8 = 1
  add : ∀ a b, φ (gadd a b) = φ a + φ b
  mul : ∀ a b, φ (gmul a b) = φ a * φ b

theorem exists_readsAsField : ∃ (F : Type) (_ : Field F) (φ : Byte → F), ReadsAsField φ :=
  ⟨Byte, byteField, id, @ReadsAsField.mk Byte byteField id Function.injective_id rfl rfl (fun _ _ => rfl) fun _ _ => rfl⟩

namespace ReadsAsField

variable {F : Type} [Field F] {φ : Byte → F} (hφ : ReadsAsField φ)

include hφ

theorem sub (a b : Byte) : φ (gsub a b) = φ a - φ b := by
  have hneg : φ b + φ b = 0 := by
    rw [← hφ.add, gadd, BitVec.xor_self, hφ.zero]
  rw [show gsub a b = gadd a b from rfl, hφ.add, eq_sub_iff_add_eq, add_assoc, hneg, add_zero]

theorem quotient (a b : Byte) : φ (quotient a b) = φ a / φ b := by
  by_cases hb : b = 0x00#8
  · rw [Sys2Proof.quotient, hb, gdiv_zero_right, Option.getD_none, hφ.zero, div_zero]
  obtain ⟨d, hd, rfl⟩ := exists_gdiv_eq a hb
  have hne : φ b ≠ 0 := fun h => hb (hφ.injective (h.trans hφ.zero.symm))
  rw [Sys2Proof.quotient, hd, Option.getD_some, hφ.mul, mul_div_cancel_right₀ _ hne]

theorem gpow (x : Byte) (i : Nat) : φ (gpow x i) = φ x ^ i := by
  induction i with
  | zero => rw [pow_zero]; exact hφ.one
  | succ i ih => rw [Sys2Proof.gpow, hφ.mul, ih, pow_succ]

theorem gsumTo (f : Nat → Byte) (n : Nat) : φ (gsumTo f n) = ∑ i ∈ Finset.range (n + 1), φ (f i) := by
  induction n with
  | zero => rw [Finset.sum_range_one]; rfl
  | succ n ih => rw [Sys2Proof.gsumTo, hφ.add, ih, Finset.sum_range_succ _ (n + 1)]

theorem polyValue (c : Nat → Byte) (n : Nat) (x : Byte) :
    φ (polyValue c n x) = ∑ i ∈ Finset.range (n + 1), φ (c i) * φ x ^ i := by
  simp only [Sys2Proof.polyValue, hφ.gsumTo, hφ.mul, hφ.gpow]

end ReadsAsField

/-! ## The obligations -/

/-- Settles O11: the powers of the generator multiply by adding their exponents, in either product. -/
theorem tableProductIsShiftAndXorProduct : Obligations.TableProductIsShiftAndXorProduct := gmul_eq_gmulRef

/-- Settles O12: the argument for the unit's own tables uses no more of the generator than is assumed here. -/
theorem resultsDoNotDependOnTheGenerator : Obligations.ResultsDoNotDependOnTheGenerator :=
  fun _ _ _ hone hnext hall hlog hzero a b =>
    ⟨tableMul_eq_gmul hone hnext hall hlog hzero a b, tableDiv_eq_gdiv hone hnext hall hlog hzero a b⟩

/-- Settles O13: row by row; sum and difference are the bitwise XOR, product and quotient have the laws above. -/
theorem fieldFunctionsObeyTheFieldLaws : Obligations.FieldFunctionsObeyTheFieldLaws := by
  refine ⟨fun _ => BitVec.xor_zero, fun _ => BitVec.xor_self, fun a b => ?addTwice, BitVec.xor_comm, BitVec.xor_assoc,
    fun _ _ => rfl, fun a => ⟨gmul_zero_right a, gmul_zero_left a⟩, fun a => ⟨gmul_one_right a, gmul_one_left a⟩,
    gmul_comm, gmul_assoc, gmul_gadd, fun _ _ => gmul_eq_zero, gdiv_zero_right, fun _ => gdiv_zero_left,
    fun a _ => gdiv_gmul a, fun a b hb => ?divMul, fun _ => gdiv_self, gdiv_one, fun a ha => ?inverse, gdiv_one 0x01#8⟩
  case addTwice => rw [gadd, gadd, BitVec.xor_assoc, BitVec.xor_self, BitVec.xor_zero]
  case divMul =>
    obtain ⟨d, hd, hprod⟩ := exists_gdiv_eq a hb
    rw [hd, Option.map_some, hprod]
  case inverse =>
    obtain ⟨d, hd, hprod, hback⟩ := exists_ginv_eq ha
    rw [hd, Option.map_some, hprod, Option.bind_some]
    exact ⟨rfl, hback⟩

end Sys2Proof.Proofs
end

section
/-! `EVAL` computes the polynomial's value (42_poly_eval.md rule R125). -/

namespace Sys2Proof.Proofs

open Sys2Proof.Machine

/-- Horner's rule: the accumulator ends as the polynomial's value, plus what it held times x to the power of the rounds. -/
theorem ReadsAsField.horner {F : Type} [Field F] {φ : Byte → F} (hφ : ReadsAsField φ) (c : Nat → Byte) (x : Byte)
    (n : Nat) (acc : Byte) : φ ((List.range n).foldr (fun i a => gadd (gmul a x) (c i)) acc) =
      ∑ i ∈ Finset.range n, φ (c i) * φ x ^ i + φ acc * φ x ^ n := by
  induction n generalizing acc with
  | zero => simp
  | succ n ih =>
    rw [List.range_succ, List.foldr_append, List.foldr_cons, List.foldr_nil, ih, Finset.sum_range_succ, hφ.add, hφ.mul]
    ring

theorem foldr_horner_eq_polyValue (c : Nat → Byte) (n : Nat) (x : Byte) :
    (List.range (n + 1)).foldr (fun i a => gadd (gmul a x) (c i)) 0x00#8 = polyValue c n x := by
  obtain ⟨F, _, φ, hφ⟩ := exists_readsAsField
  apply hφ.injective
  rw [hφ.horner, hφ.polyValue, hφ.zero, zero_mul, add_zero]

theorem exec_eval_polyValue {s : State} {c : Nat → Byte} (h : CoefHolds s c) (x : Byte) :
    exec (.eval x) s = .next { s with outbox := s.outbox ++ [.ok (polyValue c s.cdeg.toNat x)] } := by
  rw [exec_eval_of_coefHolds h, foldr_horner_eq_polyValue]

/-! ## Values at particular points -/

theorem polyValue_degree_zero (c : Nat → Byte) (x : Byte) : polyValue c 0 x = c 0 := gmul_one_right (c 0)

theorem polyValue_at_zero (c : Nat → Byte) (n : Nat) : polyValue c n 0x00#8 = c 0 := by
  induction n with
  | zero => exact polyValue_degree_zero c _
  | succ n ih =>
    have hterm : gmul (c (n + 1)) (gpow 0x00#8 (n + 1)) = 0x00#8 := by
      rw [gpow, gmul_zero_right, gmul_zero_right]
    rw [polyValue, gsumTo, hterm, ← polyValue, ih]
    exact BitVec.xor_zero

theorem gpow_one (i : Nat) : gpow 0x01#8 i = 0x01#8 := by
  induction i with
  | zero => rfl
  | succ i ih => rw [gpow, ih, gmul_one_left]

theorem polyValue_at_one (c : Nat → Byte) (n : Nat) : polyValue c n 0x01#8 = gsumTo c n := by
  simp only [polyValue, gpow_one, gmul_one_right]

/-- Settles O25: Horner's loop computes the sum, by the field's laws. -/
theorem evalIsThePolynomialsValue : Obligations.EvalIsThePolynomialsValue := fun _ _ x h => exec_eval_polyValue h x

/-- Settles O26: each is the polynomial's value; the first `EVAL` leaves the coefficients the second reads. -/
theorem evalAtZeroAtOneAndTwice : Obligations.EvalAtZeroAtOneAndTwice := by
  intro s c h
  refine ⟨?zero, ?one, fun hdeg x => ?constant, fun x => ⟨_, _, exec_eval_polyValue h x, rfl, ?twice⟩⟩
  case zero => rw [exec_eval_polyValue h, polyValue_at_zero]
  case one => rw [exec_eval_polyValue h, polyValue_at_one]
  case constant =>
    rw [exec_eval_polyValue h, hdeg, BitVec.toNat_zero, polyValue_degree_zero]
  case twice => exact exec_eval_polyValue (s := { s with outbox := s.outbox ++ [.ok (polyValue c s.cdeg.toNat x)] }) h x

end Sys2Proof.Proofs
end

section
/-! `INTERP` (43_lagrange.md rules R146 to R148). Over written points with distinct x-coordinates the two loops compute
the Lagrange sum, which is a value of the interpolating polynomial over the field of the bytes; Mathlib's uniqueness of
that polynomial gives rule R148. -/

namespace Sys2Proof.Proofs

open Sys2Proof.Machine

/-! ## The loops over written points -/

/-- One factor of a basis value (rule R146). -/
theorem gdiv_eq_some_quotient (a : Byte) {b : Byte} (hb : b ≠ 0x00#8) : gdiv a b = some (quotient a b) := by
  obtain ⟨d, hd, -⟩ := exists_gdiv_eq a hb
  rw [quotient, hd, Option.getD_some]

section Basis

variable {px : Memory} {x : Nat → Byte} {i : Nat} {js : List Nat} (hi : memLoad px i = some (x i))
  (hjs : ∀ j ∈ js, memLoad px j = some (x j))

include hi hjs

theorem basisLoop_draws (v l : Byte) (k : Nat) : (basisLoop px v i js l k).2 = k := by
  rw [basisLoop_written v i hi js l k hjs]

/-- Where no other point has the x-coordinate of point `i`, the inner loop multiplies the quotients in. -/
theorem basisLoop_of_distinct (hne : ∀ j ∈ js, j ≠ i → x i ≠ x j) (v l : Byte) (k : Nat) :
    basisLoop px v i js l k = (some (gmul l (((js.filter (fun j => j != i)).map
      (fun j => quotient (gsub v (x j)) (gsub (x i) (x j)))).foldr gmul 0x01#8)), k) := by
  rw [basisLoop_written v i hi js l k hjs]
  congr 1
  clear hjs
  induction js generalizing l with
  | nil => simp [gmul_one_right]
  | cons j js ih =>
    obtain ⟨hj, hne⟩ := List.forall_mem_cons.1 hne
    rw [List.foldl_cons, Option.bind_some]
    by_cases hji : j = i
    · rw [if_pos hji, ih hne, List.filter_cons_of_neg (by simp [hji])]
    · have hdenominator : gsub (x i) (x j) ≠ 0x00#8 := mt gsub_eq_zero_iff.1 (hj hji)
      rw [if_neg hji, gdiv_eq_some_quotient _ hdenominator, Option.map_some, ih hne,
        List.filter_cons_of_pos (by simp [hji]), List.map_cons, List.foldr_cons, gmul_assoc]

end Basis

/-- The outer loop over points that all have a basis value: a field sum. -/
theorem interpLoop_of_basis {px py : Memory} {v : Byte} {js : List Nat} {b y : Nat → Byte} {is : List Nat} {k : Nat}
    (hb : ∀ i ∈ is, basisLoop px v i js 0x01#8 k = (some (b i), k)) (hy : ∀ i ∈ is, memLoad py i = some (y i))
    (sum : Byte) : interpLoop px py v js is sum k =
      (some (is.foldl (fun acc i => gadd acc (gmul (y i) (b i))) sum), k) := by
  induction is generalizing sum with
  | nil => rfl
  | cons i is ih =>
    obtain ⟨hbi, hb⟩ := List.forall_mem_cons.1 hb
    obtain ⟨hyi, hy⟩ := List.forall_mem_cons.1 hy
    simp only [interpLoop, hbi, memRead_written hyi, ih hb hy, List.foldl_cons]

/-- Over written points the loops draw no free byte, whatever they come to. -/
theorem interpLoop_draws {px py : Memory} {x y : Nat → Byte} {js is : List Nat}
    (hjs : ∀ j ∈ js, memLoad px j = some (x j)) (his : ∀ i ∈ is, memLoad px i = some (x i) ∧ memLoad py i = some (y i))
    (v sum : Byte) (k : Nat) : (interpLoop px py v js is sum k).2 = k := by
  induction is generalizing sum with
  | nil => rfl
  | cons i is ih =>
    obtain ⟨⟨hx, hy⟩, his⟩ := List.forall_mem_cons.1 his
    have hdraws := basisLoop_draws hx hjs v 0x01#8 k
    rw [interpLoop]
    split
    next k' hbasis => rw [hbasis] at hdraws; exact hdraws
    next l k' hbasis =>
      rw [hbasis] at hdraws
      obtain rfl : k' = k := hdraws
      simp only [memRead_written hy, ih his]

theorem foldl_gadd_eq_gsumTo (f : Nat → Byte) (n : Nat) :
    (List.range (n + 1)).foldl (fun acc i => gadd acc (f i)) 0x00#8 = gsumTo f n := by
  induction n with
  | zero => exact BitVec.zero_xor
  | succ n ih => rw [List.range_succ, List.foldl_append, ih]; rfl

/-! ## The whole computation -/

section PointsHold

variable {s : State} {x y : Nat → Byte} (h : PointsHold s x y)

include h

theorem interpolate_of_distinct (hx : DistinctUpTo s.plast.toNat x) (v : Byte) (k : Nat) :
    interpolate v s.toGfau k = (some (lagrangeValue x y s.plast.toNat v), k) := by
  have hpx : ∀ i ∈ pointNumbers s.toGfau, memLoad s.px i = some (x i) := fun i hi => (h i (mem_pointNumbers.1 hi)).1
  have hpy : ∀ i ∈ pointNumbers s.toGfau, memLoad s.py i = some (y i) := fun i hi => (h i (mem_pointNumbers.1 hi)).2
  have hbasis : ∀ i ∈ pointNumbers s.toGfau, basisLoop s.px v i (pointNumbers s.toGfau) 0x01#8 k =
      (some (basisValue x s.plast.toNat i v), k) := fun i hi => by
    have hne : ∀ j ∈ pointNumbers s.toGfau, j ≠ i → x i ≠ x j := fun j hj hji =>
      hx i (mem_pointNumbers.1 hi) j (mem_pointNumbers.1 hj) hji.symm
    rw [basisLoop_of_distinct (hpx i hi) hpx hne, gmul_one_left]
    rfl
  rw [interpolate, interpLoop_of_basis hbasis hpy]
  exact congrArg (fun sum => (some sum, k)) (foldl_gadd_eq_gsumTo _ _)

theorem interpolate_of_repeated (hx : ¬ DistinctUpTo s.plast.toNat x) (v : Byte) (k : Nat) :
    interpolate v s.toGfau k = (none, k) := by
  have hpoints : ∀ i ∈ pointNumbers s.toGfau, memLoad s.px i = some (x i) ∧ memLoad s.py i = some (y i) :=
    fun i hi => h i (mem_pointNumbers.1 hi)
  exact Prod.ext ((interpolate_eq_none_iff (fun j hj => (h j hj).1) v k).2 hx)
    (interpLoop_draws (fun j hj => (hpoints j hj).1) hpoints v 0x00#8 k)

theorem exec_interp_of_distinct (hx : DistinctUpTo s.plast.toNat x) (v : Byte) :
    exec (.interp v) s = .next { s with outbox := s.outbox ++ [.ok (lagrangeValue x y s.plast.toNat v)] } :=
  exec_of_replyOk <| by rw [commandReply, interpReply, interpolate_of_distinct h hx, replyOrDiv0_some]

theorem exec_interp_of_repeated (hx : ¬ DistinctUpTo s.plast.toNat x) (v : Byte) : exec (.interp v) s =
    .next { s with status := s.status ||| 0x01#8, outbox := s.outbox ++ [.fault .div0] } :=
  exec_of_raiseFault (c := .div0) <| by
    rw [commandReply, interpReply, interpolate_of_repeated h hx, replyOrDiv0_none]

end PointsHold

/-- One point in use: there is no division, written or not (rule R147). -/
theorem interpolate_of_one_point {u : Gfau} (h : u.plast = 0x00#8) (v : Byte) (k : Nat) :
    ∃ y k', interpolate v u k = (some y, k') := by
  have hpoints : pointNumbers u = [0] := by rw [pointNumbers, h]; rfl
  rw [interpolate, hpoints]
  exact ⟨_, _, rfl⟩

/-- A dividing command answers OK or `DIV0`, in every state (rule R194). -/
theorem exec_replyOrDiv0 {i : Instr} {s : State} {q : Option Byte} {k : Nat}
    (h : commandReply i s.toGfau s.draws = replyOrDiv0 q s.toGfau k) :
    (∃ y, exec i s = .next { s with draws := k, outbox := s.outbox ++ [.ok y] }) ∨
    exec i s = .next { s with draws := k, status := s.status ||| 0x01#8, outbox := s.outbox ++ [.fault .div0] } := by
  cases q with
  | some y => exact .inl ⟨y, exec_of_replyOk_unit h⟩
  | none =>
    refine .inr ?_
    rw [exec_eq_answer, answer, h]
    rfl

/-! ## The Lagrange sum as a value of the interpolating polynomial -/

section Polynomial

open Polynomial

variable {F : Type} [Field F] {φ : Byte → F} (hφ : ReadsAsField φ)

include hφ

theorem ReadsAsField.foldr_gmul (f : Nat → Byte) (js : List Nat) :
    φ ((js.map f).foldr gmul 0x01#8) = (js.map (fun j => φ (f j))).prod := by
  induction js with
  | nil => exact hφ.one
  | cons j js ih => rw [List.map_cons, List.foldr_cons, hφ.mul, ih, List.map_cons, List.prod_cons]

theorem ReadsAsField.basisValue (x : Nat → Byte) (n i : Nat) (v : Byte) : φ (basisValue x n i v) =
    (Lagrange.basis (Finset.range (n + 1)) (fun j => φ (x j)) i).eval (φ v) := by
  have hothers : (Finset.range (n + 1)).erase i = ((List.range (n + 1)).filter (fun j => j != i)).toFinset := by
    ext j
    simp [and_comm]
  have hnodup : ((List.range (n + 1)).filter (fun j => j != i)).Nodup := List.nodup_range.filter _
  rw [Sys2Proof.basisValue, hφ.foldr_gmul, Lagrange.basis, eval_prod, hothers, List.prod_toFinset _ hnodup]
  simp only [hφ.quotient, hφ.sub, Lagrange.basisDivisor, eval_mul, eval_C, eval_sub, eval_X, div_eq_inv_mul]

theorem ReadsAsField.lagrangeValue (x y : Nat → Byte) (n : Nat) (v : Byte) : φ (lagrangeValue x y n v) =
    (Lagrange.interpolate (Finset.range (n + 1)) (fun j => φ (x j)) (fun j => φ (y j))).eval (φ v) := by
  simp only [Sys2Proof.lagrangeValue, hφ.gsumTo, hφ.mul, hφ.basisValue, Lagrange.interpolate_apply, eval_finsetSum,
    eval_mul, eval_C]

theorem ReadsAsField.injOn {x : Nat → Byte} {n : Nat} (hx : DistinctUpTo n x) :
    Set.InjOn (fun j => φ (x j)) (Finset.range (n + 1) : Finset Nat) := by
  intro i hi j hj hij
  by_contra hne
  rw [Finset.coe_range, Set.mem_Iio, Nat.lt_succ_iff] at hi hj
  exact hx i hi j hj hne (hφ.injective hij)

/-- The Lagrange sum is the value of any polynomial of low enough degree through the points: there is only one. -/
theorem ReadsAsField.lagrangeValue_eq_eval {x y : Nat → Byte} {n : Nat} (hx : DistinctUpTo n x) {P : F[X]}
    (hdeg : P.degree < (n + 1 : Nat)) (hP : ∀ i ≤ n, P.eval (φ (x i)) = φ (y i)) (v : Byte) :
    φ (Sys2Proof.lagrangeValue x y n v) = P.eval (φ v) := by
  have hunique : P = Lagrange.interpolate (Finset.range (n + 1)) (fun j => φ (x j)) (fun j => φ (y j)) :=
    Lagrange.eq_interpolate_of_eval_eq _ (hφ.injOn hx) (by rwa [Finset.card_range])
      fun i hi => hP i (Finset.mem_range_succ_iff.1 hi)
  rw [hφ.lagrangeValue, ← hunique]

end Polynomial

/-! ## Rule R148 -/

section Rule148

open Polynomial

variable {x y : Nat → Byte} {n : Nat} (hx : DistinctUpTo n x)

include hx

theorem lagrangeValue_at_point {k : Nat} (hk : k ≤ n) : lagrangeValue x y n (x k) = y k := by
  obtain ⟨F, _, φ, hφ⟩ := exists_readsAsField
  apply hφ.injective
  rw [hφ.lagrangeValue]
  exact Lagrange.eval_interpolate_at_node _ (hφ.injOn hx) (Finset.mem_range_succ_iff.2 hk)

/-- The interpolating polynomial goes through the same points in any order. -/
theorem lagrangeValue_permutation {p : Nat → Nat} (hp : ∀ i ≤ n, p i ≤ n) (hxp : DistinctUpTo n (fun i => x (p i)))
    (v : Byte) : lagrangeValue (fun i => x (p i)) (fun i => y (p i)) n v = lagrangeValue x y n v := by
  obtain ⟨F, _, φ, hφ⟩ := exists_readsAsField
  apply hφ.injective
  rw [hφ.lagrangeValue x y]
  refine hφ.lagrangeValue_eq_eval hxp ?degree (fun i hi => ?through) v
  case degree => simpa only [Finset.card_range] using Lagrange.degree_interpolate_lt _ (hφ.injOn hx)
  case through =>
    exact Lagrange.eval_interpolate_at_node _ (hφ.injOn hx) (Finset.mem_range_succ_iff.2 (hp i hi))

/-- The polynomial with coefficients `c 0` to `c m` is of low enough degree to be the interpolating one. -/
theorem lagrangeValue_of_polyValue {c : Nat → Byte} {m : Nat} (hm : m ≤ n) (hy : ∀ i ≤ n, y i = polyValue c m (x i))
    (v : Byte) : lagrangeValue x y n v = polyValue c m v := by
  obtain ⟨F, _, φ, hφ⟩ := exists_readsAsField
  apply hφ.injective
  have heval : ∀ a, (∑ i ∈ Finset.range (m + 1), C (φ (c i)) * X ^ i : F[X]).eval (φ a) = φ (polyValue c m a) := fun a => by
    simp [eval_finsetSum, hφ.polyValue]
  rw [hφ.lagrangeValue_eq_eval hx ?degree fun i hi => (heval (x i)).trans (by rw [hy i hi]), heval]
  case degree =>
    refine (degree_sum_le _ _).trans_lt ((Finset.sup_lt_iff (WithBot.bot_lt_coe _)).2 fun i hi => ?_)
    refine (degree_C_mul_X_pow_le i _).trans_lt (Nat.cast_lt.2 ?_)
    have := Finset.mem_range.1 hi
    omega

end Rule148

/-- Distinctness does not depend on the order of the points. -/
theorem distinctUpTo_permutation_iff {x : Nat → Byte} {n : Nat} {p : Nat → Nat} (hp : ∀ i ≤ n, p i ≤ n)
    (hinj : ∀ i ≤ n, ∀ j ≤ n, p i = p j → i = j) : DistinctUpTo n (fun i => x (p i)) ↔ DistinctUpTo n x := by
  constructor
  · intro h i hi j hj hij
    have honto : ∀ m ≤ n, ∃ m' ≤ n, p m' = m := by
      have hsurj : Set.SurjOn p (Finset.Iic n) (Finset.Iic n) :=
        Finset.surjOn_of_injOn_of_card_le p (by simpa [Set.MapsTo] using hp)
          (fun i hi j hj => hinj i (by simpa using hi) j (by simpa using hj)) le_rfl
      simpa [Set.SurjOn, Set.subset_def] using hsurj
    obtain ⟨i', hi', rfl⟩ := honto i hi
    obtain ⟨j', hj', rfl⟩ := honto j hj
    exact h i' hi' j' hj' fun h => hij (congrArg p h)
  · intro h i hi j hj hij
    exact h (p i) (hp i hi) (p j) (hp j hj) (mt (hinj i hi j hj) hij)

/-! ## The obligations -/

/-- Settles O27: over distinct x-coordinates each quotient exists and the loops compute the sum; over repeated ones some
denominator is 0x00. One point is divided by nothing. -/
theorem interpComputesTheLagrangeSumOrFaults : Obligations.InterpComputesTheLagrangeSumOrFaults := by
  refine ⟨fun s x y v h => ⟨fun hx => exec_interp_of_distinct h hx v, fun hx => exec_interp_of_repeated h hx v⟩,
    fun s v hplast => ?onePoint, fun _ => rfl⟩
  case onePoint =>
    obtain ⟨y, k, hq⟩ := interpolate_of_one_point (u := s.toGfau) hplast v s.draws
    exact ⟨y, k, exec_of_replyOk_unit (by rw [commandReply, interpReply, hq, replyOrDiv0_some])⟩

/-- Settles O28: the command ends as every dividing command does. -/
theorem interpAlwaysAnswers : Obligations.InterpAlwaysAnswers := fun _ _ => ⟨_, exec_replyOrDiv0 rfl⟩

/-- Settles O29: the interpolating polynomial has the value y at x; over one point the basis value is the empty product. -/
theorem interpAtAStoredPointGivesItsY : Obligations.InterpAtAStoredPointGivesItsY := by
  intro s x y h hx
  refine ⟨fun k hk => ?stored, fun hplast v => ?onePoint⟩
  case stored => rw [exec_interp_of_distinct h hx, lagrangeValue_at_point hx hk]
  case onePoint =>
    have hvalue : lagrangeValue x y 0 v = y 0 := gmul_one_right (y 0)
    rw [exec_interp_of_distinct h hx, hplast, BitVec.toNat_zero, hvalue]

/-- Settles O30: whether the points are distinct does not depend on their order, and distinct points have one
interpolating polynomial. -/
theorem interpIsInvariantUnderPermutation : Obligations.InterpIsInvariantUnderPermutation := by
  intro s s' x y p v hplast h h' hp hinj
  have hdistinct := distinctUpTo_permutation_iff (x := x) hp hinj
  by_cases hx : DistinctUpTo s.plast.toNat x
  · have hxp := hdistinct.2 hx
    refine ⟨_, _, _, exec_interp_of_distinct h hx v, exec_interp_of_distinct h' (hplast ▸ hxp) v, rfl, ?_⟩
    rw [hplast, lagrangeValue_permutation hx hp hxp]
  · exact ⟨_, _, _, exec_interp_of_repeated h hx v, exec_interp_of_repeated h' (hplast ▸ mt hdistinct.1 hx) v, rfl, rfl⟩

/-- Settles O31: the polynomial in `COEF` is itself the interpolating one. -/
theorem interpRecoversThePolynomial : Obligations.InterpRecoversThePolynomial := by
  intro s c x y v hc h hx hdeg hy
  refine ⟨?interp, exec_eval_polyValue hc v⟩
  case interp => rw [exec_interp_of_distinct h hx, lagrangeValue_of_polyValue hx hdeg hy]

end Sys2Proof.Proofs
end
